-- ==== Sys2Proof/Word.lean ====
section
/-! DEFINITION. The word types of the block's ports and the value a float pattern denotes. -/

namespace Sys2Proof

/-- One wire (spec/10_state.md R19). -/
abbrev Bit := BitVec 1

/-- A command word `req_cmd` (spec/30_encoding.md R41). -/
abbrev CmdWord := BitVec 9

/-- The BITS field of a command word (spec/30_encoding.md R41). -/
abbrev WidthField := BitVec 6

/-- The operand and result buses `req_opnd` and `rsp_data` (spec/10_state.md R19). -/
abbrev Data := BitVec 64

/-- The signed code word, CODE_W = 32 (spec/00_scope.md R5). -/
abbrev CodeWord := BitVec 32

/-- The class and exact value of a float pattern (spec/40_common_numerics.md R56).
`finite negative m x` is the number `(-1)^negative * m * 2^x`. -/
inductive FloatVal
  | nan
  | inf (negative : Bool)
  | finite (negative : Bool) (m : Nat) (x : Int)
  deriving DecidableEq, Repr

end Sys2Proof
end

