-- ==== Sys2Proof/Config.lean ====
section
/-! DEFINITION. What an implementation fixes (spec/00_scope.md R5), and the free values of the assembler. -/

namespace Sys2Proof.Config

/-- E_MIN, the smallest legal bit width (spec/00_scope.md R5). -/
def eMin : Nat := 2

/-- E_MAX, the largest legal bit width (spec/00_scope.md R5). -/
def eMax : Nat := 32

/-- The largest value the 6-bit BITS field can hold (spec/30_encoding.md R43). -/
def bitsMax : Nat := 63

/-- DESIGN CHOICE (log entry 13): spec/30_encoding.md R49 says that a decimal float literal stands for
the nearest pattern and names none when the literal `num / den` is exactly half way between two
patterns: whether it goes to the upper one is a free value. -/
opaque literalTieRoundsUp (num den : Nat) : Bool

/-- DESIGN CHOICE (log entry 13): the pattern of a literal whose nearest value lies beyond the largest
finite one; spec/30_encoding.md R49 names none, so it is a free value. -/
opaque literalBeyondRange (negative : Bool) (num den : Nat) : Data

end Sys2Proof.Config
end

