-- ==== Sys2Proof/Syntax.lean ====
section
/-! DEFINITION. The commands of NFP-CMD 1.0 (spec/opcode_table.json, spec/30_encoding.md R40 to R42), and the
source terms of the assembler (spec/30_encoding.md R49 to R51). -/

namespace Sys2Proof

/-- PREC, bit 8 of the command word: `S` is binary32, `D` is binary64 (spec/30_encoding.md R41). -/
inductive Precision
  | S
  | D
  deriving DecidableEq, Repr

/-- SCHEME, bit 7: `A` is "without zero", `B` is "with zero" (spec/30_encoding.md R41). -/
inductive Scheme
  | A
  | B
  deriving DecidableEq, Repr

/-- DIR, bit 6: encode is float to code, decode is code to float (spec/30_encoding.md R41). -/
inductive Direction
  | encode
  | decode
  deriving DecidableEq, Repr

/-- What the requester presents: a command word and an operand (spec/30_encoding.md R40). -/
structure Command where
  cmd : CmdWord
  opnd : Data
  deriving DecidableEq, Repr

/-- The eight commands (spec/30_encoding.md R42). Each carries its BITS field and the whole operand
bus, because a command is the pair of both (spec/30_encoding.md R40). -/
inductive Instr
  /-- `ENCWOZ.S`, spec/41_scheme_a_without_zero.md R75. -/
  | encwozS (bits : WidthField) (opnd : Data)
  /-- `DECWOZ.S`, spec/41_scheme_a_without_zero.md R77. -/
  | decwozS (bits : WidthField) (opnd : Data)
  /-- `ENCWZ.S`, spec/42_scheme_b_with_zero.md R85. -/
  | encwzS (bits : WidthField) (opnd : Data)
  /-- `DECWZ.S`, spec/42_scheme_b_with_zero.md R87. -/
  | decwzS (bits : WidthField) (opnd : Data)
  /-- `ENCWOZ.D`, spec/41_scheme_a_without_zero.md R76. -/
  | encwozD (bits : WidthField) (opnd : Data)
  /-- `DECWOZ.D`, spec/41_scheme_a_without_zero.md R78. -/
  | decwozD (bits : WidthField) (opnd : Data)
  /-- `ENCWZ.D`, spec/42_scheme_b_with_zero.md R86. -/
  | encwzD (bits : WidthField) (opnd : Data)
  /-- `DECWZ.D`, spec/42_scheme_b_with_zero.md R88. -/
  | decwzD (bits : WidthField) (opnd : Data)
  deriving DecidableEq, Repr

/-- A mnemonic as its three choices (spec/30_encoding.md R51). -/
structure Mnemonic where
  prec : Precision
  scheme : Scheme
  dir : Direction
  deriving DecidableEq, Repr

/-- An assembler operand (spec/30_encoding.md R49). -/
inductive Literal
  /-- A hexadecimal literal, most significant digit first. -/
  | hex (digits : List (BitVec 4))
  /-- A decimal integer. -/
  | int (value : Int)
  /-- A decimal float: `(-1)^negative * digits * 10^exp10`. -/
  | float (negative : Bool) (digits : Nat) (exp10 : Int)
  deriving DecidableEq, Repr

/-- One source line: a command (spec/30_encoding.md R49) or a fixed-width pseudo-command (R50). -/
inductive Source
  | core (m : Mnemonic) (bits : Nat) (operand : Literal)
  | fixedWidth (m : Mnemonic) (n : Nat) (operand : Literal)
  deriving DecidableEq, Repr

/-- The BITS field of a command. -/
def Instr.bits : Instr → WidthField
  | .encwozS b _ => b
  | .decwozS b _ => b
  | .encwzS b _ => b
  | .decwzS b _ => b
  | .encwozD b _ => b
  | .decwozD b _ => b
  | .encwzD b _ => b
  | .decwzD b _ => b

/-- The operand bus of a command. -/
def Instr.opnd : Instr → Data
  | .encwozS _ d => d
  | .decwozS _ d => d
  | .encwzS _ d => d
  | .decwzS _ d => d
  | .encwozD _ d => d
  | .decwozD _ d => d
  | .encwzD _ d => d
  | .decwzD _ d => d

/-- Which of the eight mnemonics a command has (spec/30_encoding.md R42). -/
def Instr.mnemonic : Instr → Mnemonic
  | .encwozS _ _ => ⟨.S, .A, .encode⟩
  | .decwozS _ _ => ⟨.S, .A, .decode⟩
  | .encwzS _ _ => ⟨.S, .B, .encode⟩
  | .decwzS _ _ => ⟨.S, .B, .decode⟩
  | .encwozD _ _ => ⟨.D, .A, .encode⟩
  | .decwozD _ _ => ⟨.D, .A, .decode⟩
  | .encwzD _ _ => ⟨.D, .B, .encode⟩
  | .decwzD _ _ => ⟨.D, .B, .decode⟩

/-- The command of a mnemonic with its BITS field and operand bus. -/
def Mnemonic.instr (m : Mnemonic) (bits : WidthField) (opnd : Data) : Instr :=
  match m.prec, m.scheme, m.dir with
  | .S, .A, .encode => .encwozS bits opnd
  | .S, .A, .decode => .decwozS bits opnd
  | .S, .B, .encode => .encwzS bits opnd
  | .S, .B, .decode => .decwzS bits opnd
  | .D, .A, .encode => .encwozD bits opnd
  | .D, .A, .decode => .decwozD bits opnd
  | .D, .B, .encode => .encwzD bits opnd
  | .D, .B, .decode => .decwzD bits opnd

end Sys2Proof
end

