-- ==== Sys2Proof/WellFormed.lean ====
section
/-! DEFINITION. The checks on commands and on assembler source terms. -/

namespace Sys2Proof

/-- The bit width of the command is legal, 2 to 32 (spec/30_encoding.md R43). The field widths of `Instr`
already make every term encodable; a term that fails this check still runs and answers
InvalidBitWidth (spec/30_encoding.md R47, spec/60_exceptions.md R95). -/
def Instr.wellFormed (i : Instr) : Bool :=
  decide (Config.eMin ≤ i.bits.toNat) && decide (i.bits.toNat ≤ Config.eMax)

/-- The operand literal suits the command: up to 16 hexadecimal digits for any command, a decimal
float for an encode, a decimal integer that 32 bits hold for a decode (spec/30_encoding.md R49,
spec/00_scope.md R6). -/
def Literal.wellFormed (dir : Direction) : Literal → Bool
  | .hex digits => decide (1 ≤ digits.length) && decide (digits.length ≤ 16)
  | .int value =>
    decide (dir = .decode) && decide (-(2 : Int) ^ 31 ≤ value) && decide (value < (2 : Int) ^ 31)
  | .float _ _ _ => decide (dir = .encode)

/-- A source line: a command with a width of 0 to 63 (spec/30_encoding.md R49), or a pseudo-command
with a width of 2 to 32 (R50), and an operand that suits it. -/
def Source.wellFormed : Source → Bool
  | .core m bits operand => decide (bits ≤ Config.bitsMax) && operand.wellFormed m.dir
  | .fixedWidth m n operand =>
    decide (Config.eMin ≤ n) && decide (n ≤ Config.eMax) && operand.wellFormed m.dir

end Sys2Proof
end

