-- ==== Sys2Proof/Decode.lean ====
section
/-! DEFINITION. The decoder and the encoder of command words (spec/30_encoding.md R40 to R44), and the
opcode map as the spec prints it (R42). -/

namespace Sys2Proof

/-- The BITS field, bits 5:0 (spec/30_encoding.md R41). -/
def fieldBits (w : CmdWord) : WidthField := w.extractLsb' 0 6

/-- The opcode OP, bits 8:6 (spec/30_encoding.md R41). -/
def fieldOp (w : CmdWord) : BitVec 3 := w.extractLsb' 6 3

/-- The command that a command word and an operand spell: PREC (bit 8), SCHEME (bit 7) and DIR (bit 6)
choose the mnemonic. Every word spells one, so nothing is rejected (spec/30_encoding.md R41, R42, R47). -/
def decode (c : Command) : Instr :=
  match c.cmd.getLsbD 8, c.cmd.getLsbD 7, c.cmd.getLsbD 6 with
  | false, false, false => .encwozS (fieldBits c.cmd) c.opnd
  | false, false, true => .decwozS (fieldBits c.cmd) c.opnd
  | false, true, false => .encwzS (fieldBits c.cmd) c.opnd
  | false, true, true => .decwzS (fieldBits c.cmd) c.opnd
  | true, false, false => .encwozD (fieldBits c.cmd) c.opnd
  | true, false, true => .decwozD (fieldBits c.cmd) c.opnd
  | true, true, false => .encwzD (fieldBits c.cmd) c.opnd
  | true, true, true => .decwzD (fieldBits c.cmd) c.opnd

/-- The command word `OP ++ BITS` (spec/30_encoding.md R42). -/
def commandWord (op : BitVec 3) (bits : WidthField) : CmdWord := op ++ bits

/-- The words of a command: OP as the opcode map of spec/30_encoding.md R42 gives it, then BITS, and the
operand beside them. -/
def encode : Instr → Command
  | .encwozS bits opnd => ⟨commandWord 0b000#3 bits, opnd⟩
  | .decwozS bits opnd => ⟨commandWord 0b001#3 bits, opnd⟩
  | .encwzS bits opnd => ⟨commandWord 0b010#3 bits, opnd⟩
  | .decwzS bits opnd => ⟨commandWord 0b011#3 bits, opnd⟩
  | .encwozD bits opnd => ⟨commandWord 0b100#3 bits, opnd⟩
  | .decwozD bits opnd => ⟨commandWord 0b101#3 bits, opnd⟩
  | .encwzD bits opnd => ⟨commandWord 0b110#3 bits, opnd⟩
  | .decwzD bits opnd => ⟨commandWord 0b111#3 bits, opnd⟩

/-- One row of the opcode map: a word `w` spells the mnemonic when `w &&& mask = value`
(spec/30_encoding.md R42). -/
structure OpcodeRow where
  mnemonic : Mnemonic
  value : CmdWord
  mask : CmdWord
  deriving DecidableEq, Repr

/-- The opcode map, row by row as spec/30_encoding.md R42 and spec/opcode_table.json print it. -/
def opcodeMap : List OpcodeRow :=
  [ ⟨⟨.S, .A, .encode⟩, 0x000#9, 0x1C0#9⟩,
    ⟨⟨.S, .A, .decode⟩, 0x040#9, 0x1C0#9⟩,
    ⟨⟨.S, .B, .encode⟩, 0x080#9, 0x1C0#9⟩,
    ⟨⟨.S, .B, .decode⟩, 0x0C0#9, 0x1C0#9⟩,
    ⟨⟨.D, .A, .encode⟩, 0x100#9, 0x1C0#9⟩,
    ⟨⟨.D, .A, .decode⟩, 0x140#9, 0x1C0#9⟩,
    ⟨⟨.D, .B, .encode⟩, 0x180#9, 0x1C0#9⟩,
    ⟨⟨.D, .B, .decode⟩, 0x1C0#9, 0x1C0#9⟩ ]

/-- The command whose bits are the low `nbits` bits of `w`, numbered as spec/opcode_table.json numbers
them: bits 8:0 are the command word, and the operand's 64 bits count on from bit 9; every bit
from `nbits` up is 0. `none` where a bit above bit 72 is set, which no port carries. DESIGN CHOICE,
log entry 10. -/
def commandOfBits (nbits w : Nat) : Option Command :=
  let v := w % 2 ^ nbits
  if v < 2 ^ 73 then some ⟨BitVec.ofNat 9 v, BitVec.ofNat 64 (v / 2 ^ 9)⟩ else none

/-- The instruction the decoder reads from an instruction whose bits are `w` (log entry 10). -/
def decodeTableWord (nbits w : Nat) : Option Instr :=
  (commandOfBits nbits w).map decode

end Sys2Proof
end

