-- ==== Sys2Proof/Machine/State.lean ====
section
/-! DEFINITION. The state of the block and of the requester, the reasons a step can stop, and the state after reset
(spec/10_state.md). -/

namespace Sys2Proof.Machine

/-- The block's answer to one command (spec/10_state.md R11, spec/30_encoding.md R45). -/
structure Response where
  data : Data
  err : Bit
  deriving DecidableEq, Repr

/-- The input ports in one clock cycle (spec/10_state.md R19). A pin is `none` where the requester
drives no stable, defined value around the edge that ends the cycle
(spec/70_reset_and_hazards.md R114 (f)). -/
structure InputPins where
  rst : Option Bit
  reqValid : Option Bit
  reqCmd : Option CmdWord
  reqOpnd : Option Data
  rspReady : Option Bit
  deriving DecidableEq, Repr

/-- The input ports sampled at an edge at which all of them are defined. -/
structure Sample where
  rst : Bit
  reqValid : Bit
  reqCmd : CmdWord
  reqOpnd : Data
  rspReady : Bit
  deriving DecidableEq, Repr

/-- The output ports (spec/10_state.md R19 to R21). `rspData` and `rspErr` have no value while
`rspValid = 0` (log entry 6). -/
structure OutputPins where
  reqReady : Bit
  rspValid : Bit
  rspData : Option Data
  rspErr : Option Bit
  deriving DecidableEq, Repr

/-- What the rising edge that ends the current cycle does (spec/10_state.md R24). -/
inductive Edge
  /-- No input is given for this cycle, so no edge is modelled (log entry 2). -/
  | noInput
  /-- An input pin is undefined at the edge (spec/70_reset_and_hazards.md R114 (f)). -/
  | undefinedInput
  /-- The requester changed or withdrew an offer before it was accepted (spec/70_reset_and_hazards.md R114 (b)). -/
  | offerBroken
  /-- `rst = 1` (spec/70_reset_and_hazards.md R110). -/
  | reset
  /-- The command is accepted (spec/10_state.md R22). -/
  | accept (c : Command)
  /-- The response is taken (spec/10_state.md R23). -/
  | deliver (r : Response)
  /-- None of these: `RSP` is unchanged (spec/10_state.md R24). -/
  | hold
  deriving DecidableEq, Repr

/-- The transitions of the clock-free view (spec/10_state.md R25). -/
inductive Transition
  | accept (c : Command)
  | deliver
  | reset
  deriving DecidableEq, Repr

/-- The machine. `rsp` is all the storage the spec gives the block (spec/10_state.md R11, R18). `inputs` and
`offer` are the requester's side, the other agent of spec/10_state.md R26. -/
structure State where
  /-- `RSP`, the response register (spec/10_state.md R11). -/
  rsp : Option Response
  /-- The input pins of the coming cycles, oldest first (log entry 1). -/
  inputs : List InputPins
  /-- The command offered in the previous cycle and not accepted, which the requester must go on
  offering (spec/70_reset_and_hazards.md R114 (b), log entry 4). -/
  offer : Option Command
  deriving DecidableEq, Repr

/-- Reasons to stop with a fault: there are none. The one exception, InvalidBitWidth, is a response and the run goes
on (spec/60_exceptions.md R96, R100; spec/93_implementation_defined.md S3; log entry 9). -/
inductive Fault
  deriving DecidableEq, Repr

/-- Reasons to refuse a step. -/
inductive Refusal
  /-- Raised by an arm of `exec` that has no meaning; no arm is one now. Safe. -/
  | notModelled (mnemonic : String)
  /-- Raised by `step` when an input pin is undefined at the edge: the spec says that a model refuses such a run
  (spec/70_reset_and_hazards.md R114 (f), spec/93_implementation_defined.md U2). Safe. -/
  | undefinedInput
  /-- Raised by `step` when the requester changes or withdraws an offer before it is accepted: the spec says that a model
  refuses such a run (spec/70_reset_and_hazards.md R114 (b), spec/93_implementation_defined.md U1). Safe. -/
  | offerBroken
  deriving DecidableEq, Repr

/-- The machine right after reset: `RSP = none` (spec/10_state.md R27, spec/70_reset_and_hazards.md R111). No input is
given yet (log entry 1) and no offer stands (log entry 4). -/
def State.reset : State := { rsp := none, inputs := [], offer := none }

end Sys2Proof.Machine
end

