-- ==== Sys2Proof/Machine/Operands.lean ====
section
/-! DEFINITION. How operands are read and results are placed on the buses (spec/30_encoding.md R43 to R46). -/

namespace Sys2Proof.Machine

/-- `e = unsigned(BITS)`, with no scaling, offset or sign (spec/30_encoding.md R43). -/
def widthOf (bits : WidthField) : Nat := bits.toNat

/-- `2 ≤ e ≤ 32` (spec/30_encoding.md R43). -/
def legalWidth (e : Nat) : Bool := decide (Config.eMin ≤ e) && decide (e ≤ Config.eMax)

/-- `req_opnd[31:0]`: a binary32 pattern or a code word; bits 63:32 are ignored (spec/30_encoding.md R44). -/
def lowWord (opnd : Data) : BitVec 32 := opnd.extractLsb' 0 32

/-- `signed(req_opnd[31:0])`, the code operand, unmasked (spec/30_encoding.md R44). -/
def codeOperand (opnd : Data) : Int := (lowWord opnd).toInt

/-- `twos_32(i)` (spec/00_scope.md R6). -/
def twos32 (i : Int) : CodeWord := BitVec.ofInt 32 i

/-- `zext_64(v)` of a 32-bit value: bits 63:32 of the result are zero (spec/30_encoding.md R45). -/
def zext64 (v : BitVec 32) : Data := v.setWidth 64

end Sys2Proof.Machine
end

