-- ==== Sys2Proof/Machine/Flags.lean ====
section
/-! DEFINITION. The block has no flags (spec/10_state.md R14). The one status bit is `rsp_err`, which belongs to one
response (spec/60_exceptions.md R95). -/

namespace Sys2Proof.Machine

/-- `rsp_err = 0`: no error (spec/60_exceptions.md R95). -/
def errNone : Bit := 0#1

/-- `rsp_err = 1`: cause code 1, InvalidBitWidth (spec/60_exceptions.md R95). -/
def errInvalidBitWidth : Bit := 1#1

end Sys2Proof.Machine
end

