-- ==== Sys2Proof/Machine/Numerics.lean ====
section
/-! DEFINITION. The numeric semantics common to both schemes, in the integer forms the spec gives beside its
rational ones (spec/40_common_numerics.md R55 to R65). The rational forms are in Machine/Exact.lean. -/

namespace Sys2Proof.Machine

/-- `s(e) = 2^(e-1) - 1` (spec/40_common_numerics.md R55). -/
def stepCount (e : Nat) : Nat := 2 ^ (e - 1) - 1

/-- The width of the fraction field (spec/30_encoding.md R46). -/
def fracWidth : Precision → Nat
  | .S => 23
  | .D => 52

/-- The exponent bias (spec/30_encoding.md R46). -/
def bias : Precision → Nat
  | .S => 127
  | .D => 1023

/-- The all-ones exponent field (spec/40_common_numerics.md R56). -/
def expMax : Precision → Nat
  | .S => 255
  | .D => 2047

/-- The class and exact value of the fields sign, exponent `E` and fraction `F`: the table of
spec/40_common_numerics.md R56. -/
def classify (P : Precision) (sg : Bool) (E F : Nat) : FloatVal :=
  if E = expMax P then
    if F = 0 then .inf sg else .nan
  else if E = 0 then
    .finite sg F (1 - (bias P : Int) - (fracWidth P : Int))
  else
    .finite sg (2 ^ fracWidth P + F) ((E : Int) - (bias P : Int) - (fracWidth P : Int))

/-- `fval32(w)`: sign bit 31, exponent bits 30:23, fraction bits 22:0 (spec/30_encoding.md R46,
spec/40_common_numerics.md R56). -/
def fval32 (w : BitVec 32) : FloatVal :=
  classify .S (w.getLsbD 31) (w.extractLsb' 23 8).toNat (w.extractLsb' 0 23).toNat

/-- `fval64(w)`: sign bit 63, exponent bits 62:52, fraction bits 51:0 (spec/30_encoding.md R46,
spec/40_common_numerics.md R56). -/
def fval64 (w : BitVec 64) : FloatVal :=
  classify .D (w.getLsbD 63) (w.extractLsb' 52 11).toNat (w.extractLsb' 0 52).toNat

/-- The float operand of an encode: `req_opnd[31:0]` as binary32 or `req_opnd[63:0]` as binary64
(spec/30_encoding.md R44). -/
def floatOperand (P : Precision) (opnd : Data) : FloatVal :=
  match P with
  | .S => fval32 (lowWord opnd)
  | .D => fval64 opnd

/-- The magnitude of the code of `m * 2^x`: 0 for zero; `s` where the magnitude is at least 1; else
`m * s * 2^x` rounded to the nearest integer, half up in magnitude. The integer form of
spec/40_common_numerics.md R61, its test `E >= bias` written on `m` and `x`. -/
def encodeMagnitude (m : Nat) (x : Int) (s : Nat) : Nat :=
  if m = 0 then 0
  else
    let k := (-x).toNat
    if 0 ≤ x ∨ 2 ^ k ≤ m then s
    else (m * s + 2 ^ (k - 1)) / 2 ^ k

/-- The code of a float: 0 for NaN (spec/40_common_numerics.md R60), `s` or `-s` for an infinity (R57), the rounded
product with its sign for a finite value (R61). -/
def encodeCode (f : FloatVal) (e : Nat) : Int :=
  match f with
  | .nan => 0
  | .inf negative => if negative then -(stepCount e : Int) else (stepCount e : Int)
  | .finite negative m x =>
    if negative then -(encodeMagnitude m x (stepCount e) : Int)
    else (encodeMagnitude m x (stepCount e) : Int)

/-- `EncodeCore(P, w, e)`, with `w` taken from the operand bus (spec/40_common_numerics.md R61). -/
def encodeCore (P : Precision) (opnd : Data) (e : Nat) : Data :=
  zext64 (twos32 (encodeCode (floatOperand P opnd) e))

/-- Saturation on decode, `min(max(c, -s), s)` (spec/40_common_numerics.md R63). -/
def clampCode (c : Int) (s : Nat) : Int := min (max c (-(s : Int))) (s : Int)

/-- The least `j` with `s ≤ n * 2^j`, up to `fuel`; `-j` is the exponent `Eq` of
spec/40_common_numerics.md R64, which lies in -31 to 0. -/
def normalShift (n s : Nat) : Nat → Nat
  | 0 => 0
  | fuel + 1 => if s ≤ n then 0 else normalShift (2 * n) s fuel + 1

/-- Round the quotient with integer part `M` and remainder `rem` over `s`: to nearest, ties to even
(spec/40_common_numerics.md R64). -/
def roundQuotient (M rem s : Nat) : Nat :=
  if s < 2 * rem ∨ (2 * rem = s ∧ M % 2 = 1) then M + 1 else M

/-- The exponent field and the fraction field of `n / s` rounded once, for `0 < n ≤ s`: the integer
form of `rneP` (spec/40_common_numerics.md R64). -/
def rneFields (P : Precision) (n s : Nat) : Nat × Nat :=
  let fw := fracWidth P
  let j := normalShift n s 31
  let N := n * 2 ^ (fw + j)
  let M := roundQuotient (N / s) (N % s) s
  if M = 2 ^ (fw + 1) then (bias P - j + 1, 0) else (bias P - j, M - 2 ^ fw)

/-- `zext_64(sg ++ Ef ++ Ff)`: a float pattern on the result bus (spec/40_common_numerics.md R65,
spec/30_encoding.md R46). -/
def packFloat (P : Precision) (sg : Bool) (fields : Nat × Nat) : Data :=
  match P with
  | .S => zext64 (BitVec.ofBool sg ++ (BitVec.ofNat 8 fields.1 ++ BitVec.ofNat 23 fields.2))
  | .D => BitVec.ofBool sg ++ (BitVec.ofNat 11 fields.1 ++ BitVec.ofNat 52 fields.2)

/-- The float pattern of the clamped code `cc` over `s`: all zeros for 0, else sign, exponent and fraction
(spec/40_common_numerics.md R65). -/
def decodePattern (P : Precision) (cc : Int) (s : Nat) : Data :=
  if cc = 0 then 0#64 else packFloat P (decide (cc < 0)) (rneFields P cc.natAbs s)

/-- `DecodeCore(P, cw, e)`, with `cw` taken from the operand bus (spec/40_common_numerics.md R65). -/
def decodeCore (P : Precision) (opnd : Data) (e : Nat) : Data :=
  decodePattern P (clampCode (codeOperand opnd) (stepCount e)) (stepCount e)

end Sys2Proof.Machine
end

