-- ==== Sys2Proof/Machine/Ops.lean ====
section
/-! DEFINITION. The shared operations of the machine: answering a command, raising InvalidBitWidth, delivering a
response, reset, and the output ports (spec/10_state.md R20 to R24, spec/60_exceptions.md R96). -/

namespace Sys2Proof.Machine

/-- Write `RSP`. -/
def State.setRsp (r : Option Response) (s : State) : State := { s with rsp := r }

/-- The answer of an offered command goes into `RSP` when the block is ready, `RSP = none`; while a response is
pending the command is not accepted and waits, with nothing changed (spec/10_state.md R20, R22, R24; log entry 5). -/
def answer (r : Response) (s : State) : Host.Outcome State Fault Refusal :=
  match s.rsp with
  | none => .next (s.setRsp (some r))
  | some _ => .next s

/-- `respond(d)`: the command completes without error with result `d` (spec/00_scope.md R7). -/
def respond (d : Data) (s : State) : Host.Outcome State Fault Refusal := answer ⟨d, errNone⟩ s

/-- Taking the one exception: `raise InvalidBitWidth` completes the command with `rsp_data = 0`, `rsp_err = 1` and changes
nothing else (spec/60_exceptions.md R96, R100). There is no return from it (R101). -/
def raiseInvalidBitWidth (s : State) : Host.Outcome State Fault Refusal :=
  answer ⟨0#64, errInvalidBitWidth⟩ s

/-- The frame of every command: the width is tested first, before the operand is looked at
(spec/60_exceptions.md R99), then the result for that width is the response. -/
def convert (bits : WidthField) (result : Nat → Data) (s : State) : Host.Outcome State Fault Refusal :=
  if legalWidth (widthOf bits) then respond (result (widthOf bits)) s else raiseInvalidBitWidth s

/-- The deliver step and the reset step both empty `RSP` (spec/10_state.md R23, R24). -/
def State.emptyRsp (s : State) : State := s.setRsp none

/-- The output ports are functions of `RSP` alone (spec/10_state.md R20, R21). -/
def State.outputs (s : State) : OutputPins :=
  match s.rsp with
  | none => { reqReady := 1#1, rspValid := 0#1, rspData := none, rspErr := none }
  | some r => { reqReady := 0#1, rspValid := 1#1, rspData := some r.data, rspErr := some r.err }

/-- The block has nothing pending (spec/10_state.md R25, spec/70_reset_and_hazards.md R118). -/
def State.quiescent (s : State) : Bool := s.rsp.isNone

end Sys2Proof.Machine
end

