-- ==== Sys2Proof/Machine/SchemeA.lean ====
section
/-! DEFINITION. Scheme A, "without zero": the four commands of spec/41_scheme_a_without_zero.md. -/

namespace Sys2Proof.Machine

/-- `ENCWOZ.S` (spec/41_scheme_a_without_zero.md R75). -/
def execEncwozS (bits : WidthField) (opnd : Data) (s : State) : Host.Outcome State Fault Refusal :=
  convert bits (fun e => encodeCore .S opnd e) s

/-- `ENCWOZ.D` (spec/41_scheme_a_without_zero.md R76). -/
def execEncwozD (bits : WidthField) (opnd : Data) (s : State) : Host.Outcome State Fault Refusal :=
  convert bits (fun e => encodeCore .D opnd e) s

/-- `DECWOZ.S` (spec/41_scheme_a_without_zero.md R77). -/
def execDecwozS (bits : WidthField) (opnd : Data) (s : State) : Host.Outcome State Fault Refusal :=
  convert bits (fun e => decodeCore .S opnd e) s

/-- `DECWOZ.D` (spec/41_scheme_a_without_zero.md R78). -/
def execDecwozD (bits : WidthField) (opnd : Data) (s : State) : Host.Outcome State Fault Refusal :=
  convert bits (fun e => decodeCore .D opnd e) s

end Sys2Proof.Machine
end

