-- ==== Sys2Proof/Machine/SchemeB.lean ====
section
/-! DEFINITION. Scheme B, "with zero": the four commands of spec/42_scheme_b_with_zero.md. Both of the document's
branches scale by `nmax = -nmin = s`, so each is the single formula of `EncodeCore` or `DecodeCore`. -/

namespace Sys2Proof.Machine

/-- `ENCWZ.S` (spec/42_scheme_b_with_zero.md R85). -/
def execEncwzS (bits : WidthField) (opnd : Data) (s : State) : Host.Outcome State Fault Refusal :=
  convert bits (fun e => encodeCore .S opnd e) s

/-- `ENCWZ.D` (spec/42_scheme_b_with_zero.md R86). -/
def execEncwzD (bits : WidthField) (opnd : Data) (s : State) : Host.Outcome State Fault Refusal :=
  convert bits (fun e => encodeCore .D opnd e) s

/-- `DECWZ.S` (spec/42_scheme_b_with_zero.md R87). -/
def execDecwzS (bits : WidthField) (opnd : Data) (s : State) : Host.Outcome State Fault Refusal :=
  convert bits (fun e => decodeCore .S opnd e) s

/-- `DECWZ.D` (spec/42_scheme_b_with_zero.md R88). -/
def execDecwzD (bits : WidthField) (opnd : Data) (s : State) : Host.Outcome State Fault Refusal :=
  convert bits (fun e => decodeCore .D opnd e) s

end Sys2Proof.Machine
end

