-- ==== Sys2Proof/Machine/Dispatch.lean ====
section
/-! DEFINITION. The dispatch of every command to its meaning. -/

namespace Sys2Proof.Machine

/-- What a command offered to the block does (spec/10_state.md R22), one arm per row of spec/opcode_table.json. -/
def exec (i : Instr) (s : State) : Host.Outcome State Fault Refusal :=
  match i with
  | .encwozS bits opnd => Sys2Proof.Machine.execEncwozS bits opnd s
  | .decwozS bits opnd => Sys2Proof.Machine.execDecwozS bits opnd s
  | .encwzS bits opnd => Sys2Proof.Machine.execEncwzS bits opnd s
  | .decwzS bits opnd => Sys2Proof.Machine.execDecwzS bits opnd s
  | .encwozD bits opnd => Sys2Proof.Machine.execEncwozD bits opnd s
  | .decwozD bits opnd => Sys2Proof.Machine.execDecwozD bits opnd s
  | .encwzD bits opnd => Sys2Proof.Machine.execEncwzD bits opnd s
  | .decwzD bits opnd => Sys2Proof.Machine.execDecwzD bits opnd s

end Sys2Proof.Machine
end

