-- ==== Sys2Proof/Machine/Handshake.lean ====
section
/-! DEFINITION. The request and response ports at one rising edge of `clk` (spec/10_state.md R19 to R24,
spec/70_reset_and_hazards.md R110, R114). -/

namespace Sys2Proof.Machine

/-- The pins as sampled at the edge; `none` where any of them is undefined (spec/70_reset_and_hazards.md R114 (f)). -/
def InputPins.sample (p : InputPins) : Option Sample :=
  match p.rst, p.reqValid, p.reqCmd, p.reqOpnd, p.rspReady with
  | some rst, some valid, some cmd, some opnd, some ready => some ⟨rst, valid, cmd, opnd, ready⟩
  | _, _, _, _, _ => none

/-- The command the requester offers in a cycle: `req_cmd` and `req_opnd` while `req_valid = 1`
(spec/10_state.md R20). -/
def Sample.offered (p : Sample) : Option Command :=
  if p.reqValid = 1#1 then some ⟨p.reqCmd, p.reqOpnd⟩ else none

/-- The requester goes on with a standing offer: all of `req_valid`, `req_cmd` and `req_opnd` are unchanged
(spec/70_reset_and_hazards.md R114 (b)). -/
def Sample.keepsOffer (p : Sample) (standing : Option Command) : Bool :=
  match standing with
  | none => true
  | some c => decide (p.offered = some c)

/-- What an edge with sampled pins does, in the order of tests of spec/10_state.md R24. The duty of
spec/70_reset_and_hazards.md R114 (b) is looked at only where `rst = 0` (log entry 4). -/
def Sample.edge (p : Sample) (rsp : Option Response) (standing : Option Command) : Edge :=
  if p.rst = 1#1 then .reset
  else if p.keepsOffer standing then
    match rsp, p.offered with
    | none, some c => .accept c
    | none, none => .hold
    | some r, _ => if p.rspReady = 1#1 then .deliver r else .hold
  else .offerBroken

/-- What the edge that ends the current cycle does. -/
def edgeOf (s : State) : Edge :=
  match s.inputs with
  | [] => .noInput
  | p :: _ =>
    match p.sample with
    | none => .undefinedInput
    | some q => q.edge s.rsp s.offer

/-- The offer of the current cycle. -/
def currentOffer (s : State) : Option Command :=
  match s.inputs with
  | [] => none
  | p :: _ => p.sample.bind Sample.offered

/-- The next cycle begins: its inputs come to the front, and `standing` is the offer that the requester must keep. -/
def State.nextCycle (standing : Option Command) (s : State) : State :=
  { s with inputs := s.inputs.tail, offer := standing }

/-- The next cycle begins after an accepting edge that ran a command: no offer stands any more. -/
def afterAccept (o : Host.Outcome State Fault Refusal) : Host.Outcome State Fault Refusal :=
  match o with
  | .next t => .next (t.nextCycle none)
  | .fault f => .fault f
  | .refused r => .refused r

/-- A cycle in which the requester offers the command `c` with every pin defined and `rst = 0`. -/
def offerCycle (c : Command) (ready : Bit) : InputPins :=
  { rst := some 0#1, reqValid := some 1#1, reqCmd := some c.cmd, reqOpnd := some c.opnd, rspReady := some ready }

/-- A cycle in which the requester offers nothing. -/
def idleCycle (ready : Bit) : InputPins :=
  { rst := some 0#1, reqValid := some 0#1, reqCmd := some 0#9, reqOpnd := some 0#64, rspReady := some ready }

/-- A cycle with `rst = 1` and nothing offered (spec/70_reset_and_hazards.md R114 (a)). -/
def resetCycle : InputPins :=
  { rst := some 1#1, reqValid := some 0#1, reqCmd := some 0#9, reqOpnd := some 0#64, rspReady := some 0#1 }

end Sys2Proof.Machine
end

