-- ==== Sys2Proof/Machine/Step.lean ====
section
/-! DEFINITION. One step: one rising edge of `clk` (spec/10_state.md R24). -/

namespace Sys2Proof.Machine

/-- One rising edge. An accepted command is decoded and run by `exec` (spec/10_state.md R22); a taken response and a
reset empty `RSP` (R23, spec/70_reset_and_hazards.md R110); else `RSP` is unchanged. With no input given there is no edge
(log entry 2). -/
def step (s : State) : Host.Outcome State Fault Refusal :=
  match edgeOf s with
  | .noInput => .next s
  | .undefinedInput => .refused .undefinedInput
  | .offerBroken => .refused .offerBroken
  | .reset => .next (s.emptyRsp.nextCycle none)
  | .accept c => afterAccept (exec (decode c) s)
  | .deliver _ => .next (s.emptyRsp.nextCycle (currentOffer s))
  | .hold => .next (s.nextCycle (currentOffer s))

/-- `s` with the command whose bits are `w` offered in the cycle that the next step ends, and the block ready to accept
it: a new first cycle stands before the other inputs, `RSP` is empty and no other offer stands (log entry 10). Bits that
no port carries leave `s` as it is. -/
def State.withFetchWord (s : State) (nbits w : Nat) : State :=
  match commandOfBits nbits w with
  | none => s
  | some c => { rsp := none, inputs := offerCycle c 0#1 :: s.inputs, offer := none }

end Sys2Proof.Machine
end

