-- ==== Sys2Proof/Machine/Assembler.lean ====
section
/-! DEFINITION. The assembler: source terms to commands (spec/30_encoding.md R49 to R51). -/

namespace Sys2Proof.Machine

/-- The opcode OP of a mnemonic, `PREC ++ SCHEME ++ DIR` (spec/30_encoding.md R41, R42). -/
def opcodeOf (m : Mnemonic) : BitVec 3 :=
  BitVec.ofBool (decide (m.prec = .D)) ++
    (BitVec.ofBool (decide (m.scheme = .B)) ++ BitVec.ofBool (decide (m.dir = .decode)))

/-- The number a list of hexadecimal digits spells; missing high digits are zero (spec/30_encoding.md R49). -/
def hexValue (digits : List (BitVec 4)) : Nat := digits.foldl (fun n d => 16 * n + d.toNat) 0

/-- The integer `E` with `2^E ≤ num / den < 2^(E+1)`, for positive `num` and `den`. -/
def quotientLog2 (num den : Nat) : Int :=
  let t : Int := (Nat.log2 num : Int) - (Nat.log2 den : Int)
  if num * 2 ^ (-t).toNat < den * 2 ^ t.toNat then t - 1 else t

/-- The pattern without its sign bit of the float nearest to `num / den`: exponent field and fraction field as one
number, subnormals included, with no bound at the top. A tie is a free value (log entry 13). -/
def nearestMagnitude (P : Precision) (num den : Nat) : Nat :=
  if num = 0 then 0
  else
    let Eq : Int := max (quotientLog2 num den) (1 - (bias P : Int))
    let sh : Int := (fracWidth P : Int) - Eq
    let top := num * 2 ^ sh.toNat
    let bot := den * 2 ^ (-sh).toNat
    let M := top / bot
    let rem := top % bot
    let M' := if bot < 2 * rem ∨ (2 * rem = bot ∧ Config.literalTieRoundsUp num den) then M + 1 else M
    (Eq + (bias P : Int) - 1).toNat * 2 ^ fracWidth P + M'

/-- A sign bit above a magnitude, as the pattern of one precision on the operand bus (spec/30_encoding.md R46, R49). -/
def signedPattern (P : Precision) (negative : Bool) (magnitude : Nat) : Data :=
  match P with
  | .S => zext64 (BitVec.ofBool negative ++ BitVec.ofNat 31 magnitude)
  | .D => BitVec.ofBool negative ++ BitVec.ofNat 63 magnitude

/-- The pattern a decimal float literal stands for, the nearest one of the command's precision
(spec/30_encoding.md R49); free where the nearest lies beyond the largest finite value (log entry 13). -/
def floatLiteral (P : Precision) (negative : Bool) (num den : Nat) : Data :=
  let magnitude := nearestMagnitude P num den
  if magnitude < expMax P * 2 ^ fracWidth P then signedPattern P negative magnitude
  else
    match P with
    | .S => zext64 (lowWord (Config.literalBeyondRange negative num den))
    | .D => Config.literalBeyondRange negative num den

/-- `req_opnd` of an operand literal (spec/30_encoding.md R49). -/
def operandOf (m : Mnemonic) (l : Literal) : Data :=
  match l with
  | .hex digits => BitVec.ofNat 64 (hexValue digits)
  | .int value => zext64 (twos32 value)
  | .float negative digits exp10 =>
    floatLiteral m.prec negative (digits * 10 ^ exp10.toNat) (10 ^ (-exp10).toNat)

/-- A pseudo-command is its core command with the width in its name (spec/30_encoding.md R50). -/
def expand (src : Source) : Source :=
  match src with
  | .core m bits operand => .core m bits operand
  | .fixedWidth m n operand => .core m n operand

/-- The command a core source line spells: `(OP << 6) | e` and the operand (spec/30_encoding.md R42, R49). -/
def assembleCore (m : Mnemonic) (bits : Nat) (operand : Literal) : Command :=
  ⟨commandWord (opcodeOf m) (BitVec.ofNat 6 bits), operandOf m operand⟩

/-- The command of a source line, `none` where the line is not well formed (spec/30_encoding.md R49, R50). -/
def assemble (src : Source) : Option Command :=
  if src.wellFormed then
    match expand src with
    | .core m bits operand => some (assembleCore m bits operand)
    | .fixedWidth m n operand => some (assembleCore m n operand)
  else none

end Sys2Proof.Machine
end

