-- ==== Sys2Proof/Machine/AsmText.lean ====
section
/-! DEFINITION. Reading a source line of the assembler, `<MNEMONIC> <bits>, <operand>` or `<OP><N>.<P> <operand>`, with the
expected response `-> <data>, <err>` and a `; comment` after it where they stand (spec/30_encoding.md R49 to R51). The
details the spec leaves open are in log entries 14 and 19. -/

namespace Sys2Proof.Machine

/-- A mnemonic's spelling (spec/30_encoding.md R51). -/
def spelling (m : Mnemonic) : List Char :=
  (match m.dir with
    | .encode => ['E', 'N', 'C']
    | .decode => ['D', 'E', 'C']) ++
  (match m.scheme with
    | .A => ['W', 'O', 'Z']
    | .B => ['W', 'Z']) ++
  (match m.prec with
    | .S => ['.', 'S']
    | .D => ['.', 'D'])

/-- The rest of a text after a prefix, `none` where it does not begin so. -/
def afterPrefix (pre text : List Char) : Option (List Char) :=
  match pre, text with
  | [], rest => some rest
  | _ :: _, [] => none
  | c :: pre', d :: rest => if c = d then afterPrefix pre' rest else none

/-- A text without its leading blanks. -/
def skipBlanks (text : List Char) : List Char :=
  match text with
  | [] => []
  | c :: rest => if c = ' ' ∨ c = '\t' then skipBlanks rest else c :: rest

/-- A decimal digit's value: its place among the ten digits. -/
def decimalDigit (c : Char) : Option Nat := "0123456789".toList.idxOf? c

/-- A hexadecimal digit's value: its place in either spelling of the sixteen digits (log entry 14). -/
def hexDigit (c : Char) : Option Nat :=
  ["0123456789ABCDEF", "0123456789abcdef"].findSome? fun digits => digits.toList.idxOf? c

/-- The leading digits of a text and the rest. -/
def takeDigits (digit : Char → Option Nat) (text : List Char) : List Nat × List Char :=
  match text with
  | [] => ([], [])
  | c :: rest =>
    match digit c with
    | none => ([], c :: rest)
    | some d => (d :: (takeDigits digit rest).1, (takeDigits digit rest).2)

/-- The number decimal digits spell. -/
def decimalValue (digits : List Nat) : Nat := digits.foldl (fun n d => 10 * n + d) 0

/-- An optional minus sign. -/
def takeSign (text : List Char) : Bool × List Char :=
  match text with
  | '-' :: rest => (true, rest)
  | _ => (false, text)

/-- The end of a line: blanks, then nothing or a comment (spec/30_encoding.md R49). An expected response before it is read
by `readExpected` (log entry 19). -/
def atEnd (text : List Char) : Bool :=
  match skipBlanks text with
  | [] => true
  | c :: _ => decide (c = ';')

/-- The decimal exponent of a float literal, if one stands there. -/
def takeExponent (text : List Char) : Option (Int × List Char) :=
  match text with
  | [] => some (0, [])
  | c :: rest =>
    if c = 'e' ∨ c = 'E' then
      let (negative, rest') := takeSign rest
      let (digits, rest'') := takeDigits decimalDigit rest'
      if digits = [] then none
      else some (if negative then -(decimalValue digits : Int) else (decimalValue digits : Int), rest'')
    else some (0, c :: rest)

/-- The digits after a decimal point, if one stands there. -/
def takeFraction (text : List Char) : Option (List Nat × List Char) :=
  match text with
  | '.' :: rest =>
    let (digits, rest') := takeDigits decimalDigit rest
    if digits = [] then none else some (digits, rest')
  | _ => some ([], text)

/-- A decimal operand and the rest of the line: a float for an encode, an integer for a decode
(spec/30_encoding.md R49). -/
def readDecimal (dir : Direction) (text : List Char) : Option (Literal × List Char) :=
  let (negative, text') := takeSign text
  let (whole, rest) := takeDigits decimalDigit text'
  if whole = [] then none
  else
    match dir with
    | .decode => some (.int (if negative then -(decimalValue whole : Int) else (decimalValue whole : Int)), rest)
    | .encode =>
      (takeFraction rest).bind fun (fraction, rest') =>
        (takeExponent rest').map fun (exponent, rest'') =>
          (.float negative (decimalValue (whole ++ fraction)) (exponent - (fraction.length : Int)), rest'')

/-- A hexadecimal literal's digits and the rest of the line, `none` where no hexadecimal literal stands there
(spec/30_encoding.md R49). -/
def takeHex (text : List Char) : Option (List (BitVec 4) × List Char) :=
  (afterPrefix ['0', 'x'] text).map fun rest =>
    let (digits, rest') := takeDigits hexDigit rest
    (digits.map (BitVec.ofNat 4), rest')

/-- An operand and the rest of the line (spec/30_encoding.md R49). -/
def readOperand (dir : Direction) (text : List Char) : Option (Literal × List Char) :=
  match takeHex text with
  | some (digits, rest) => some (.hex digits, rest)
  | none => readDecimal dir text

/-- The `err` of an expected response, 0 or 1, at the end of a line (spec/30_encoding.md R49). -/
def readErr (text : List Char) : Option Bit :=
  match text with
  | '0' :: rest => if atEnd rest then some 0#1 else none
  | '1' :: rest => if atEnd rest then some 1#1 else none
  | _ => none

/-- An expected response after its arrow, `data` in 1 to 16 hexadecimal digits and `err`, up to the end of the line
(spec/30_encoding.md R49). -/
def readResponse (text : List Char) : Option Response :=
  (takeHex text).bind fun (digits, rest) =>
    if 1 ≤ digits.length ∧ digits.length ≤ 16 then
      (afterPrefix [','] (skipBlanks rest)).bind fun rest' =>
        (readErr (skipBlanks rest')).map fun err => ⟨BitVec.ofNat 64 (hexValue digits), err⟩
    else none

/-- What stands after the operand: an expected response or none, up to the end of the line. DESIGN CHOICE
(log entry 19): spec/30_encoding.md R49 shows the response on its example line and not in its syntax line; the model
reads a line with or without it. -/
def readExpected (text : List Char) : Option (Option Response) :=
  match afterPrefix ['-', '>'] (skipBlanks text) with
  | some rest => (readResponse (skipBlanks rest)).map some
  | none => if atEnd text then some none else none

/-- A source line as it is read: the command in source form and the expected response, where one is written
(spec/30_encoding.md R49). -/
structure SourceLine where
  source : Source
  expected : Option Response
  deriving DecidableEq, Repr

/-- The direction that begins a mnemonic. -/
def readDirection (text : List Char) : Option (Direction × List Char) :=
  match afterPrefix ['E', 'N', 'C'] text with
  | some rest => some (.encode, rest)
  | none => (afterPrefix ['D', 'E', 'C'] text).map fun rest => (.decode, rest)

/-- The scheme in a mnemonic. -/
def readScheme (text : List Char) : Option (Scheme × List Char) :=
  match afterPrefix ['W', 'O', 'Z'] text with
  | some rest => some (.A, rest)
  | none => (afterPrefix ['W', 'Z'] text).map fun rest => (.B, rest)

/-- The precision suffix and the blank after it. -/
def readPrecision (text : List Char) : Option (Precision × List Char) :=
  match text with
  | '.' :: 'S' :: ' ' :: rest => some (.S, skipBlanks rest)
  | '.' :: 'D' :: ' ' :: rest => some (.D, skipBlanks rest)
  | _ => none

/-- The width before the comma of a core command, and what follows the comma. -/
def readWidth (text : List Char) : Option (Nat × List Char) :=
  let (digits, rest) := takeDigits decimalDigit text
  match digits, skipBlanks rest with
  | _ :: _, ',' :: rest' => some (decimalValue digits, skipBlanks rest')
  | _, _ => none

/-- The operand and what follows it, for a command whose width and mnemonic are read already. -/
def readTail (dir : Direction) (source : Literal → Source) (text : List Char) : Option SourceLine :=
  (readOperand dir text).bind fun (operand, rest) =>
    (readExpected rest).map fun expected => ⟨source operand, expected⟩

/-- One source line (spec/30_encoding.md R49, R50). -/
def readLine (line : List Char) : Option SourceLine :=
  (readDirection (skipBlanks line)).bind fun (dir, text) =>
    (readScheme text).bind fun (scheme, text1) =>
      let (digits, text2) := takeDigits decimalDigit text1
      (readPrecision text2).bind fun (prec, text3) =>
        let m : Mnemonic := ⟨prec, scheme, dir⟩
        match digits with
        | [] => (readWidth text3).bind fun (bits, text4) => readTail dir (.core m bits) text4
        | 0 :: _ => none
        | _ :: _ => readTail dir (.fixedWidth m (decimalValue digits)) text3

/-- The command of a source line, `none` where the line is no command (spec/30_encoding.md R49, R50). -/
def assembleLine (line : List Char) : Option Command := (readLine line).bind fun l => assemble l.source

/-- The response a source line expects, `none` where it is no line or expects none (spec/30_encoding.md R49). -/
def expectedResponse (line : List Char) : Option Response := (readLine line).bind SourceLine.expected

end Sys2Proof.Machine
end

