-- ==== Sys2Proof/Machine/Exact.lean ====
section
/-! DEFINITION. The numeric rules in the rational forms the spec gives first (spec/40_common_numerics.md R56 to R65).
The step runs the integer forms of Machine/Numerics.lean; the statements relate the two. -/

namespace Sys2Proof.Machine

/-- The rational `(-1)^negative * m * 2^x` of a finite value (spec/40_common_numerics.md R56). -/
def finiteValue (negative : Bool) (m : Nat) (x : Int) : ℚ :=
  (if negative then -1 else 1) * (m : ℚ) * (2 : ℚ) ^ x

/-- The exact rational a float denotes, `none` for a NaN or an infinity (spec/40_common_numerics.md R56). -/
def exactValue (f : FloatVal) : Option ℚ :=
  match f with
  | .nan => none
  | .inf _ => none
  | .finite negative m x => some (finiteValue negative m x)

/-- `vc = min(max(v, -1), 1)` (spec/40_common_numerics.md R57). -/
def clampUnit (v : ℚ) : ℚ := min (max v (-1)) 1

/-- `rha`: round to the nearest integer, half away from zero (spec/40_common_numerics.md R58). -/
def rha (p : ℚ) : Int := if 0 ≤ p then ⌊p + 1 / 2⌋ else -⌊-p + 1 / 2⌋

/-- The code of a float: NaN, infinities, and `rha(vc * s)` with the exact rational product (spec/40_common_numerics.md
R57 to R61). -/
def exactCode (f : FloatVal) (e : Nat) : Int :=
  match f with
  | .nan => 0
  | .inf negative => if negative then -(stepCount e : Int) else (stepCount e : Int)
  | .finite negative m x => rha (clampUnit (finiteValue negative m x) * (stepCount e : ℚ))

/-- `EncodeCore(P, w, e)` in its rational form (spec/40_common_numerics.md R61). -/
def exactEncode (P : Precision) (opnd : Data) (e : Nat) : Data :=
  zext64 (twos32 (exactCode (floatOperand P opnd) e))

/-- The exponent field and the fraction field of `rneP(q)`, for `0 < q ≤ 1` (spec/40_common_numerics.md R64):
`Eq = ⌊log2 q⌋`, `t = q * 2^(fw - Eq)`, `M = ⌊t⌋`, `r = t - M`, ties to even. -/
def rneExact (P : Precision) (q : ℚ) : Int × Int :=
  let fw : Int := fracWidth P
  let Eq := Int.log 2 q
  let t := q * (2 : ℚ) ^ (fw - Eq)
  let r := t - (⌊t⌋ : ℚ)
  let M := if 1 / 2 < r ∨ (r = 1 / 2 ∧ ⌊t⌋ % 2 = 1) then ⌊t⌋ + 1 else ⌊t⌋
  if M = 2 ^ (fracWidth P + 1) then (Eq + 1 + bias P, 0) else (Eq + bias P, M - 2 ^ fracWidth P)

/-- `DecodeCore(P, cw, e)` in its rational form (spec/40_common_numerics.md R63 to R65). -/
def exactDecode (P : Precision) (opnd : Data) (e : Nat) : Data :=
  let s := stepCount e
  let cc := clampCode (codeOperand opnd) s
  if cc = 0 then 0#64
  else
    let fields := rneExact P ((|cc| : ℚ) / (s : ℚ))
    packFloat P (decide (cc < 0)) (fields.1.toNat, fields.2.toNat)

/-- The exact rational the pattern on a data bus denotes, read in precision `P`. -/
def busValue (P : Precision) (d : Data) : Option ℚ := exactValue (floatOperand P d)

/-- The order of the floats that are numbers, with the infinities at its ends (spec/40_common_numerics.md R68). No NaN
is below or above anything. -/
def floatLe (f g : FloatVal) : Prop :=
  match f, g with
  | .nan, _ => False
  | _, .nan => False
  | .inf true, _ => True
  | .inf false, .inf false => True
  | .inf false, _ => False
  | .finite _ _ _, .inf negative => negative = false
  | .finite sf mf xf, .finite sg mg xg => finiteValue sf mf xf ≤ finiteValue sg mg xg

/-- The pattern of +1.0 on the operand bus (spec/40_common_numerics.md R67). -/
def onePattern (P : Precision) : Data :=
  match P with
  | .S => 0x000000003F800000#64
  | .D => 0x3FF0000000000000#64

/-- The pattern of -1.0 on the operand bus (spec/40_common_numerics.md R67). -/
def minusOnePattern (P : Precision) : Data :=
  match P with
  | .S => 0x00000000BF800000#64
  | .D => 0xBFF0000000000000#64

/-- The sign bit of a pattern on a data bus (spec/30_encoding.md R46). -/
def signBit (P : Precision) : Data :=
  match P with
  | .S => 0x0000000080000000#64
  | .D => 0x8000000000000000#64

end Sys2Proof.Machine
end

