-- ==== Sys2Proof/Machine/Execute.lean ====
section
/-! DEFINITION. `Execute`, the pure function from a command to a response, as spec/10_state.md R22 writes it, bit by bit
on the command word. The step does not use it: it decodes and runs the meanings. -/

namespace Sys2Proof.Machine

/-- `Execute(cmd, opnd)` (spec/10_state.md R22). The scheme bit, `cmd[7]`, is not looked at. -/
def execute (c : Command) : Response :=
  let e := (c.cmd.extractLsb' 0 6).toNat
  let P := if c.cmd.getLsbD 8 then Precision.D else Precision.S
  if e < 2 ∨ 32 < e then ⟨0#64, 1#1⟩
  else if c.cmd.getLsbD 6 then ⟨decodeCore P c.opnd e, 0#1⟩
  else ⟨encodeCore P c.opnd e, 0#1⟩

end Sys2Proof.Machine
end

