-- ==== Sys2Proof/Machine/ClockFree.lean ====
section
/-! DEFINITION. The clock-free view of the block (spec/10_state.md R25): transitions on `RSP` alone. -/

namespace Sys2Proof.Machine

/-- One transition, where it is enabled: the new `RSP` and what is handed to the requester
(spec/10_state.md R25). -/
def fire (t : Transition) (rsp : Option Response) : Option (Option Response × List Response) :=
  match t, rsp with
  | .accept c, none => some (some (execute c), [])
  | .accept _, some _ => none
  | .deliver, some r => some (none, [r])
  | .deliver, none => none
  | .reset, _ => some (none, [])

/-- A sequence of transitions, each enabled in its turn: the last `RSP` and all that was handed over, in order. -/
def fireAll (ts : List Transition) (rsp : Option Response) : Option (Option Response × List Response) :=
  match ts with
  | [] => some (rsp, [])
  | t :: rest =>
    (fire t rsp).bind fun (rsp', out) => (fireAll rest rsp').map fun (last, outs) => (last, out ++ outs)

/-- The transition an edge makes; an idle cycle makes none (spec/10_state.md R25). -/
def transitionOf (e : Edge) : Option Transition :=
  match e with
  | .accept c => some (.accept c)
  | .deliver _ => some .deliver
  | .reset => some .reset
  | .hold => none
  | .noInput => none
  | .undefinedInput => none
  | .offerBroken => none

end Sys2Proof.Machine
end

