-- ==== Sys2Proof/Machine/Trace.lean ====
section
/-! DEFINITION. Runs of several cycles, and what the requester sees of them. -/

namespace Sys2Proof.Machine

/-- The state after `n` cycles, `none` where a step on the way stops. -/
def runCycles (n : Nat) (s : State) : Option State :=
  match n with
  | 0 => some s
  | k + 1 =>
    match step s with
    | .next t => runCycles k t
    | .fault _ => none
    | .refused _ => none

/-- What the edges of `n` cycles did, oldest first; it ends at a step that stops. -/
def edgesOf (n : Nat) (s : State) : List Edge :=
  match n with
  | 0 => []
  | k + 1 =>
    match step s with
    | .next t => edgeOf s :: edgesOf k t
    | .fault _ => [edgeOf s]
    | .refused _ => [edgeOf s]

/-- The commands accepted at some edges, in order. -/
def acceptedCommands (es : List Edge) : List Command :=
  es.filterMap fun e =>
    match e with
    | .accept c => some c
    | _ => none

/-- The responses the requester took at some edges, in order. -/
def takenResponses (es : List Edge) : List Response :=
  es.filterMap fun e =>
    match e with
    | .deliver r => some r
    | _ => none

end Sys2Proof.Machine
end

