-- ==== Sys2Proof/Safety.lean ====
section
/-! DEFINITION. What counts as a good state and a good run, in the terms the statements use. -/

namespace Sys2Proof.Machine

/-- The pending response, if there is one, is the answer to some command: no response appears without a command
(spec/10_state.md R24). -/
def PendingIsAnswer (s : State) : Prop := ∀ r, s.rsp = some r → ∃ c, execute c = r

/-- The requester's duties at the edge that ends the current cycle: the pins are defined and, where `rst = 0`, a standing
offer is kept (spec/70_reset_and_hazards.md R114 (b), (f)). -/
def dutyKept (s : State) : Bool :=
  match s.inputs with
  | [] => true
  | p :: _ =>
    match p.sample with
    | none => false
    | some q => decide (q.rst = 1#1) || q.keepsOffer s.offer

/-- A run of `n` cycles in which the requester meets its duties (spec/70_reset_and_hazards.md R114). -/
def dutiful (n : Nat) (s : State) : Bool := (runCycles n s).isSome

/-- A cycle in which the requester offers nothing: `req_valid = 0` (spec/10_state.md R20). -/
def InputPins.offersNothing (p : InputPins) : Bool := decide (p.reqValid = some 0#1)

/-- A run is over, with nothing pending: every command the requester offers has been accepted, so that no offer stands and
none is to come, every response has been taken and `RSP = none` (spec/70_reset_and_hazards.md R118). Cycles that offer
nothing may still be to come. Which offers count is in log entry 18. -/
def runOver (s : State) : Bool := s.inputs.all InputPins.offersNothing && s.offer.isNone && s.quiescent

/-- The response that a command leaves in `RSP`, if its meaning answers a next state. -/
def resultOf (i : Instr) (s : State) : Option Response :=
  match exec i s with
  | .next t => t.rsp
  | .fault _ => none
  | .refused _ => none

/-- The legal widths, 2 to 32 (spec/30_encoding.md R43). -/
def LegalBits (bits : WidthField) : Prop := 2 ≤ bits.toNat ∧ bits.toNat ≤ 32

/-- A word on the data bus read as a signed code: bits 31:0 in two's complement (spec/30_encoding.md R45). -/
def codeOf (d : Data) : Int := (d.extractLsb' 0 32).toInt

/-- The cycle in which a response is taken: the next command, where there is one, may be on the request port already
(spec/95_test_vectors.md trace T2). -/
def takingCycle (next : Option Command) (early : Bool) : InputPins :=
  match next, early with
  | some c, true => offerCycle c 1#1
  | _, _ => idleCycle 1#1

/-- Offers at the best rate, `rsp_ready` held at 1: each command in one cycle and its response taken in the next. The
flag of a command says whether the command after it is offered already while the response is taken
(spec/70_reset_and_hazards.md R116). -/
def backToBack (cs : List (Command × Bool)) : List InputPins :=
  match cs with
  | [] => []
  | (c, early) :: later => offerCycle c 1#1 :: takingCycle (later.head?.map Prod.fst) early :: backToBack later

end Sys2Proof.Machine
end

