-- ==== Sys2Proof/Certificates/Slice0/Obligations.lean ====
section
/-! DEFINITION. The statements for the provers. Each docstring names the rule of spec/ it formalises. -/

open Sys2Proof Sys2Proof.Machine

/-! ## Reset, ports and the clock edge -/

/-- spec/10_state.md R27: after reset `RSP = none`, so `rsp_valid = 0` and `req_ready = 1`, and `rsp_data` and `rsp_err`
have no value. Both the reset state and the state after any reset edge are such states. -/
def Obligations.ResetLeavesRspEmpty : Prop :=
  (State.reset.rsp = none ∧ State.reset.outputs = ⟨1#1, 0#1, none, none⟩) ∧
  ∀ (s : State) (p : InputPins) (rest : List InputPins) (q : Sample),
    s.inputs = p :: rest → p.sample = some q → q.rst = 1#1 →
    ∃ t, step s = .next t ∧ t.rsp = none ∧ t.outputs = ⟨1#1, 0#1, none, none⟩

/-- spec/70_reset_and_hazards.md R110: at an edge with `rst = 1`, `RSP` becomes `none` whatever the other inputs are, and no
command is accepted and no response is taken. -/
def Obligations.ResetEdgeEmptiesRsp : Prop :=
  ∀ (s : State) (p : InputPins) (rest : List InputPins) (q : Sample),
    s.inputs = p :: rest → p.sample = some q → q.rst = 1#1 →
    edgeOf s = .reset ∧ acceptedCommands [edgeOf s] = [] ∧ takenResponses [edgeOf s] = [] ∧
    ∃ t, step s = .next t ∧ t.rsp = none ∧ t.inputs = rest

/-- spec/70_reset_and_hazards.md R112: a response pending at a reset edge is never delivered, and a command offered in that
cycle is not accepted. Over every number of further cycles, all that is taken answers commands accepted after the edge. -/
def Obligations.PendingResponseLostAtReset : Prop :=
  ∀ (n : Nat) (s : State) (p : InputPins) (rest : List InputPins) (q : Sample),
    s.inputs = p :: rest → p.sample = some q → q.rst = 1#1 →
    acceptedCommands [edgeOf s] = [] ∧
    (takenResponses (edgesOf (n + 1) s)).Sublist
      ((acceptedCommands (edgesOf (n + 1) s)).map execute)

/-- spec/10_state.md R20: `req_ready = 1` exactly when `RSP = none`, and a command is accepted exactly when `rst = 0`,
`req_valid = 1` and `req_ready = 1`; the command is `req_cmd` and `req_opnd` of that cycle. The requester meets its
duties at the edge (spec/70_reset_and_hazards.md R114). -/
def Obligations.AcceptedExactlyWhenValidAndReady : Prop :=
  (∀ s : State, s.outputs.reqReady = 1#1 ↔ s.rsp = none) ∧
  ∀ (s : State) (p : InputPins) (rest : List InputPins) (q : Sample),
    s.inputs = p :: rest → p.sample = some q → dutyKept s = true →
    ∀ c : Command, edgeOf s = .accept c ↔
      (q.rst = 0#1 ∧ q.reqValid = 1#1 ∧ s.outputs.reqReady = 1#1 ∧ c = ⟨q.reqCmd, q.reqOpnd⟩)

/-- spec/10_state.md R21: `rsp_valid = 1` exactly when `RSP` holds a response, which is then on the port; a response is taken
exactly when `rst = 0`, `rsp_valid = 1` and `rsp_ready = 1`; until then it is held; while `rsp_valid = 0` the data
outputs have no value. -/
def Obligations.TakenExactlyWhenValidAndReady : Prop :=
  (∀ s : State, s.outputs.rspValid = 1#1 ↔ ∃ r, s.rsp = some r) ∧
  (∀ (s : State) (r : Response), s.rsp = some r →
    s.outputs.rspData = some r.data ∧ s.outputs.rspErr = some r.err) ∧
  (∀ s : State, s.rsp = none → s.outputs.rspData = none ∧ s.outputs.rspErr = none) ∧
  ∀ (s : State) (p : InputPins) (rest : List InputPins) (q : Sample),
    s.inputs = p :: rest → p.sample = some q → dutyKept s = true →
    (∀ r : Response, edgeOf s = .deliver r ↔
      (q.rst = 0#1 ∧ s.outputs.rspValid = 1#1 ∧ q.rspReady = 1#1 ∧ s.rsp = some r)) ∧
    (∀ r : Response, s.rsp = some r → q.rst = 0#1 → q.rspReady = 0#1 →
      ∃ t, step s = .next t ∧ t.rsp = some r)

/-- spec/10_state.md R22: at an accepting edge `RSP` receives `Execute` of the command, which is on the port in the very next
cycle, and the scheme bit does not change it. -/
def Obligations.AcceptStoresExecute : Prop :=
  (∀ (s : State) (c : Command), edgeOf s = .accept c →
    ∃ t, step s = .next t ∧ t.rsp = some (execute c) ∧ t.inputs = s.inputs.tail ∧
      t.outputs = ⟨0#1, 1#1, some (execute c).data, some (execute c).err⟩) ∧
  ∀ c : Command, execute ⟨c.cmd ^^^ 0x080#9, c.opnd⟩ = execute c

/-- spec/10_state.md R23: at an edge at which a response is taken `RSP` becomes `none`, and in the next cycle `rsp_valid = 0`
and `req_ready = 1`. -/
def Obligations.DeliverEmptiesRsp : Prop :=
  ∀ (s : State) (r : Response), edgeOf s = .deliver r →
    ∃ t, step s = .next t ∧ t.rsp = none ∧ t.inputs = s.inputs.tail ∧
      t.outputs.rspValid = 0#1 ∧ t.outputs.reqReady = 1#1

/-- The code block of spec/10_state.md section 5 (R24): reset first, then accept, then deliver, else unchanged, for every
input under the requester's duties (spec/70_reset_and_hazards.md R114). -/
def Obligations.ClockEdgeOrderOfTests : Prop :=
  ∀ (s : State) (p : InputPins) (rest : List InputPins) (q : Sample),
    s.inputs = p :: rest → p.sample = some q → dutyKept s = true →
    ∃ t, step s = .next t ∧ t.inputs = rest ∧
      t.rsp =
        (if q.rst = 1#1 then none
         else if s.rsp = none ∧ q.reqValid = 1#1 then some (execute ⟨q.reqCmd, q.reqOpnd⟩)
         else if s.rsp ≠ none ∧ q.rspReady = 1#1 then none
         else s.rsp)

/-- A step runs the decoded command: at an accepting edge the step is `exec` of the decoded command at that state, and then
the next cycle begins with no offer standing (spec/10_state.md R22; log entries 1 and 4 for the requester's side). -/
def Obligations.StepRunsDecodedCommand : Prop :=
  ∀ (s : State) (p : InputPins) (rest : List InputPins) (q : Sample),
    s.inputs = p :: rest → p.sample = some q → q.rst = 0#1 → q.reqValid = 1#1 → s.rsp = none →
    (s.offer = none ∨ s.offer = some ⟨q.reqCmd, q.reqOpnd⟩) →
    step s = afterAccept (exec (decode ⟨q.reqCmd, q.reqOpnd⟩) s) ∧
    ∀ t, exec (decode ⟨q.reqCmd, q.reqOpnd⟩) s = .next t →
      step s = .next { rsp := t.rsp, inputs := t.inputs.tail, offer := none }

/-- The model's reading of spec/10_state.md R20 for a busy block (log entry 5): while a response is pending no command is
accepted, and a command offered to `exec` waits with nothing changed. -/
def Obligations.BusyBlockAcceptsNothing : Prop :=
  ∀ (s : State) (r : Response), s.rsp = some r →
    (∀ i : Instr, exec i s = .next s) ∧ (∀ c : Command, edgeOf s ≠ .accept c)

/-- spec/70_reset_and_hazards.md R114 (b) and (f) with log entries 3 and 4: a step is refused exactly where an input pin is
undefined, or, with `rst = 0`, where a standing offer is changed or withdrawn; in every other case it answers a next
state. -/
def Obligations.RefusedExactlyOnBrokenDuty : Prop :=
  ∀ s : State,
    (step s = .refused .undefinedInput ↔
      ∃ p rest, s.inputs = p :: rest ∧
        (p.rst = none ∨ p.reqValid = none ∨ p.reqCmd = none ∨ p.reqOpnd = none ∨ p.rspReady = none)) ∧
    (step s = .refused .offerBroken ↔
      ∃ p rest q c, s.inputs = p :: rest ∧ p.sample = some q ∧ q.rst = 0#1 ∧ s.offer = some c ∧
        ¬(q.reqValid = 1#1 ∧ q.reqCmd = c.cmd ∧ q.reqOpnd = c.opnd)) ∧
    (step s ≠ .refused .undefinedInput → step s ≠ .refused .offerBroken → ∃ t, step s = .next t)

/-- The model's own bookkeeping of spec/70_reset_and_hazards.md R114 (b), log entry 4: after a step the standing offer is
the command that was offered in the cycle with `rst = 0` and not accepted, and there is none else. -/
def Obligations.StandingOfferIsTheUnacceptedOne : Prop :=
  ∀ (s t : State) (p : InputPins) (rest : List InputPins) (q : Sample),
    s.inputs = p :: rest → p.sample = some q → step s = .next t →
    ∀ c : Command, t.offer = some c ↔
      (q.rst = 0#1 ∧ q.reqValid = 1#1 ∧ c = ⟨q.reqCmd, q.reqOpnd⟩ ∧ s.rsp ≠ none)

/-! ## Runs -/

/-- spec/70_reset_and_hazards.md section 3 (R117, which the spec derives from R24): at an edge with `rst = 0` an empty block
accepts an offered command, and a pending response is taken when `rsp_ready = 1`. -/
def Obligations.ProgressAtEveryEdge : Prop :=
  ∀ (s : State) (p : InputPins) (rest : List InputPins) (q : Sample),
    s.inputs = p :: rest → p.sample = some q → dutyKept s = true → q.rst = 0#1 →
    (s.rsp = none → q.reqValid = 1#1 →
      edgeOf s = .accept ⟨q.reqCmd, q.reqOpnd⟩ ∧ ∃ t r, step s = .next t ∧ t.rsp = some r) ∧
    (∀ r, s.rsp = some r → q.rspReady = 1#1 →
      edgeOf s = .deliver r ∧ ∃ t, step s = .next t ∧ t.rsp = none)

/-- spec/70_reset_and_hazards.md section 3 (R116, R117): a command offered to an empty block is accepted at once, its
response stays on the port for as many cycles as the requester waits, and is taken in the cycle with `rsp_ready = 1`. -/
def Obligations.CommandAnsweredAfterWaiting : Prop :=
  ∀ (c : Command) (k : Nat) (ready : Bit) (rest : List InputPins) (s : State),
    s.rsp = none → (s.offer = none ∨ s.offer = some c) →
    s.inputs = offerCycle c ready :: (List.replicate k (idleCycle 0#1) ++ idleCycle 1#1 :: rest) →
    (∀ j, j ≤ k → ∃ t, runCycles (j + 1) s = some t ∧
      t.outputs = ⟨0#1, 1#1, some (execute c).data, some (execute c).err⟩) ∧
    runCycles (k + 2) s = some { rsp := none, inputs := rest, offer := none } ∧
    takenResponses (edgesOf (k + 2) s) = [execute c]

/-- spec/70_reset_and_hazards.md section 3 (R116): a requester that holds `rsp_ready = 1` completes one command in every two
cycles, for any number of commands, each with its own answer. While a response is taken the next command may be on the
request port already, as in trace T2 of spec/95_test_vectors.md, or not; each command's flag says which. -/
def Obligations.OneCommandPerTwoCycles : Prop :=
  ∀ (cs : List (Command × Bool)) (rest : List InputPins) (standing : Option Command),
    (standing = none ∨ standing = cs.head?.map Prod.fst) →
    let s : State := { rsp := none, inputs := backToBack cs ++ rest, offer := standing }
    runCycles (2 * cs.length) s = some { rsp := none, inputs := rest, offer := none } ∧
    acceptedCommands (edgesOf (2 * cs.length) s) = cs.map Prod.fst ∧
    takenResponses (edgesOf (2 * cs.length) s) = cs.map fun c => execute c.1

/-- spec/10_state.md R24 and spec/20_memory.md R36, the order of responses: over every run without a reset, the responses
taken, then the one still pending, are the one pending at the start, then `Execute` of each accepted command, in order. -/
def Obligations.ResponsesAnswerCommandsInOrder : Prop :=
  ∀ (n : Nat) (s t : State), runCycles n s = some t → Edge.reset ∉ edgesOf n s →
    takenResponses (edgesOf n s) ++ t.rsp.toList =
      s.rsp.toList ++ (acceptedCommands (edgesOf n s)).map execute

/-- spec/10_state.md R24 with spec/70_reset_and_hazards.md R112: over every run, resets included, what is taken keeps the
order of the accepted commands, answers them, and never comes twice or unasked; a reset can only drop answers. -/
def Obligations.ResetsOnlyDropResponses : Prop :=
  ∀ (n : Nat) (s t : State), runCycles n s = some t →
    (takenResponses (edgesOf n s) ++ t.rsp.toList).Sublist
      (s.rsp.toList ++ (acceptedCommands (edgesOf n s)).map execute)

/-- spec/70_reset_and_hazards.md section 3 (R118): over a run without a reset from an empty block, the block is quiescent
(`RSP = none`) at the end exactly when as many responses were taken as commands were accepted; else exactly one is owed.
The run is over exactly when, besides, no offer stands unaccepted and the cycles to come offer nothing (log entry 18). -/
def Obligations.QuiescentMeansAllAnswered : Prop :=
  ∀ (n : Nat) (s t : State), s.rsp = none → runCycles n s = some t → Edge.reset ∉ edgesOf n s →
    (t.quiescent = true ↔
      (takenResponses (edgesOf n s)).length = (acceptedCommands (edgesOf n s)).length) ∧
    (t.quiescent = false →
      (acceptedCommands (edgesOf n s)).length = (takenResponses (edgesOf n s)).length + 1) ∧
    (runOver t = true ↔
      (∀ p ∈ t.inputs, p.reqValid = some 0#1) ∧ t.offer = none ∧
        (takenResponses (edgesOf n s)).length = (acceptedCommands (edgesOf n s)).length)

/-- spec/70_reset_and_hazards.md section 3 (R118), that nothing is pending when a run is over: from a state in which the run
is over, with the offers counted as log entry 18 says, no further cycle accepts a command or hands a response over, and
the run stays over. -/
def Obligations.OverRunStaysOver : Prop :=
  ∀ (n : Nat) (s t : State), runOver s = true → runCycles n s = some t →
    acceptedCommands (edgesOf n s) = [] ∧ takenResponses (edgesOf n s) = [] ∧ runOver t = true

/-- spec/10_state.md section 5 (R25, which the spec derives from R24): every clocked run, less its idle cycles, is a run of
the clock-free view with the same `RSP` and the same responses handed over. -/
def Obligations.ClockedRunsAreClockFreeRuns : Prop :=
  ∀ (n : Nat) (s t : State), runCycles n s = some t →
    fireAll ((edgesOf n s).filterMap transitionOf) s.rsp = some (t.rsp, takenResponses (edgesOf n s))

/-- spec/10_state.md section 5 (R25), the other direction: every run of the clock-free view is a clocked run of some inputs
that meet the requester's duties. -/
def Obligations.ClockFreeRunsAreClockedRuns : Prop :=
  ∀ (ts : List Transition) (rsp last : Option Response) (outs : List Response),
    fireAll ts rsp = some (last, outs) →
    ∃ (inputs : List InputPins) (t : State),
      runCycles inputs.length { rsp := rsp, inputs := inputs, offer := none } = some t ∧ t.rsp = last ∧
      (edgesOf inputs.length { rsp := rsp, inputs := inputs, offer := none }).filterMap transitionOf = ts ∧
      takenResponses (edgesOf inputs.length { rsp := rsp, inputs := inputs, offer := none }) = outs

/-- spec/10_state.md R24, `no response appears without a command`, as an invariant that every step keeps: a pending response
is the answer to some command. -/
def Obligations.StepKeepsPendingAnAnswer : Prop :=
  ∀ s t : State, PendingIsAnswer s → step s = .next t → PendingIsAnswer t

/-- The invariant of `StepKeepsPendingAnAnswer` holds at reset (spec/10_state.md R27). -/
def Obligations.ResetPendingIsAnAnswer : Prop := PendingIsAnswer State.reset

/-- spec/10_state.md R10: no result of any command depends on any earlier command: in any two states that can take it, a
command leaves one and the same response, a function of the command alone, and changes nothing else. -/
def Obligations.ResultDependsOnCommandAlone : Prop :=
  ∀ (i : Instr), ∃ r : Response, ∀ s : State, s.rsp = none →
    exec i s = .next { rsp := some r, inputs := s.inputs, offer := s.offer }

/-! ## Encoding -/

/-- Decode and encode agree on every command, with every width field and every operand (spec/30_encoding.md section 1). -/
def Obligations.DecodeOfEncodeIsIdentity : Prop := ∀ i : Instr, decode (encode i) = i

/-- Every one of the 512 command words, with any operand, spells exactly one command, whose encoding is that word: no bit is
dropped and no word is reserved (spec/30_encoding.md sections 1 and 3). -/
def Obligations.EncodeOfDecodeIsIdentity : Prop := ∀ c : Command, encode (decode c) = c

/-- spec/30_encoding.md R41: PREC is bit 8, SCHEME bit 7, DIR bit 6, BITS bits 5:0 unsigned, and every word has a meaning. -/
def Obligations.FieldsOfTheCommandWord : Prop :=
  ∀ c : Command,
    ((decode c).mnemonic.prec = .D ↔ c.cmd.toNat / 256 % 2 = 1) ∧
    ((decode c).mnemonic.scheme = .B ↔ c.cmd.toNat / 128 % 2 = 1) ∧
    ((decode c).mnemonic.dir = .decode ↔ c.cmd.toNat / 64 % 2 = 1) ∧
    (decode c).bits.toNat = c.cmd.toNat % 64 ∧ (decode c).opnd = c.opnd ∧
    (fieldOp c.cmd).toNat = c.cmd.toNat / 64

/-- spec/30_encoding.md section 1, the opcode map: a word spells the mnemonic of a row exactly when `(w & mask) == match`, and
the word of a command is `(OP << 6) | e`. -/
def Obligations.DecodeFollowsOpcodeMap : Prop :=
  (∀ (c : Command) (row : OpcodeRow), row ∈ opcodeMap →
    (c.cmd &&& row.mask = row.value ↔ (decode c).mnemonic = row.mnemonic)) ∧
  ∀ i : Instr, ∃ row ∈ opcodeMap, row.mnemonic = i.mnemonic ∧
    (encode i).cmd.toNat = row.value.toNat + i.bits.toNat

/-- A few command words written out from spec/30_encoding.md and the examples of spec/41 and spec/42. -/
def Obligations.WrittenOutWordsDecode : Prop :=
  decode ⟨0b000001000#9, 0x3E800000#64⟩ = .encwozS 8 0x3E800000#64 ∧
  decode ⟨0b001001000#9, 0x40#64⟩ = .decwozS 8 0x40#64 ∧
  decode ⟨0b010001000#9, 0xBF800000#64⟩ = .encwzS 8 0xBF800000#64 ∧
  decode ⟨0b011000011#9, 1#64⟩ = .decwzS 3 1#64 ∧
  decode ⟨0b100010000#9, 0xBFE0000000000000#64⟩ = .encwozD 16 0xBFE0000000000000#64 ∧
  decode ⟨0b101000011#9, 0xFFFFFFFF#64⟩ = .decwozD 3 0xFFFFFFFF#64 ∧
  decode ⟨0b110100000#9, 0x3FB999999999999A#64⟩ = .encwzD 32 0x3FB999999999999A#64 ∧
  decode ⟨0b111010000#9, 0x3039#64⟩ = .decwzD 16 0x3039#64

/-- spec/30_encoding.md section 3: of the 512 command words, the 264 with BITS in 0, 1, 33 to 63 give the InvalidBitWidth
response and the 248 others compute a conversion. -/
def Obligations.InvalidWordsAreThoseWithIllegalWidth : Prop :=
  (∀ c : Command, (execute c).err = 1#1 ↔ (c.cmd.toNat % 64 < 2 ∨ 32 < c.cmd.toNat % 64)) ∧
  ((List.range 512).filter fun w => decide (w % 64 < 2) || decide (32 < w % 64)).length = 264 ∧
  ((List.range 512).filter fun w => decide (2 ≤ w % 64) && decide (w % 64 ≤ 32)).length = 248

/-! ## What each command answers -/

/-- spec/41_scheme_a_without_zero.md R75 and spec/42_scheme_b_with_zero.md R85: `ENCWOZ.S` and `ENCWZ.S` complete in every
state with an empty `RSP`, for every width and operand: the word is OP 000 or 010, the response is the exact code
`rha(clamp(v) * s)` of the binary32 operand, or InvalidBitWidth, and nothing else changes. The last two lines are the
rules' examples. -/
def Obligations.EncodeBinary32Completes : Prop :=
  (∀ (bits : WidthField) (opnd : Data),
    decode ⟨0b000#3 ++ bits, opnd⟩ = .encwozS bits opnd ∧ decode ⟨0b010#3 ++ bits, opnd⟩ = .encwzS bits opnd) ∧
  (∀ (bits : WidthField) (opnd : Data) (s : State), s.rsp = none →
    ∀ i, (i = .encwozS bits opnd ∨ i = .encwzS bits opnd) →
      exec i s = .next
        { rsp := some (if 2 ≤ bits.toNat ∧ bits.toNat ≤ 32 then ⟨exactEncode .S opnd bits.toNat, 0#1⟩ else ⟨0#64, 1#1⟩),
          inputs := s.inputs, offer := s.offer }) ∧
  exactEncode .S 0x000000003E800000#64 8 = 0x0000000000000020#64 ∧
  exactEncode .S 0x00000000BF800000#64 8 = 0x00000000FFFFFF81#64

/-- spec/41_scheme_a_without_zero.md R76 and spec/42_scheme_b_with_zero.md R86: `ENCWOZ.D` and `ENCWZ.D`, as
`EncodeBinary32Completes` with OP 100 or 110 and the binary64 operand. -/
def Obligations.EncodeBinary64Completes : Prop :=
  (∀ (bits : WidthField) (opnd : Data),
    decode ⟨0b100#3 ++ bits, opnd⟩ = .encwozD bits opnd ∧ decode ⟨0b110#3 ++ bits, opnd⟩ = .encwzD bits opnd) ∧
  (∀ (bits : WidthField) (opnd : Data) (s : State), s.rsp = none →
    ∀ i, (i = .encwozD bits opnd ∨ i = .encwzD bits opnd) →
      exec i s = .next
        { rsp := some (if 2 ≤ bits.toNat ∧ bits.toNat ≤ 32 then ⟨exactEncode .D opnd bits.toNat, 0#1⟩ else ⟨0#64, 1#1⟩),
          inputs := s.inputs, offer := s.offer }) ∧
  exactEncode .D 0xBFE0000000000000#64 16 = 0x00000000FFFFC000#64 ∧
  exactEncode .D 0x3FB999999999999A#64 32 = 0x000000000CCCCCCD#64

/-- spec/41_scheme_a_without_zero.md section 2 and spec/42_scheme_b_with_zero.md section 2, `DECWOZ.S` and `DECWZ.S`: they
complete in every state with an empty `RSP`: the word is OP 001 or 011, the response is the exact quotient of the clamped
code rounded once to binary32, or InvalidBitWidth, and nothing else changes. (R77's remark on widths from 26 up rests
on R72, whose range log entry 15 corrects; it is not stated here.) -/
def Obligations.DecodeBinary32Completes : Prop :=
  (∀ (bits : WidthField) (opnd : Data),
    decode ⟨0b001#3 ++ bits, opnd⟩ = .decwozS bits opnd ∧ decode ⟨0b011#3 ++ bits, opnd⟩ = .decwzS bits opnd) ∧
  (∀ (bits : WidthField) (opnd : Data) (s : State), s.rsp = none →
    ∀ i, (i = .decwozS bits opnd ∨ i = .decwzS bits opnd) →
      exec i s = .next
        { rsp := some (if 2 ≤ bits.toNat ∧ bits.toNat ≤ 32 then ⟨exactDecode .S opnd bits.toNat, 0#1⟩ else ⟨0#64, 1#1⟩),
          inputs := s.inputs, offer := s.offer }) ∧
  exactDecode .S 0x0000000000000040#64 8 = 0x000000003F010204#64 ∧
  exactDecode .S 0x0000000000000001#64 3 = 0x000000003EAAAAAB#64

/-- spec/41_scheme_a_without_zero.md R78 and spec/42_scheme_b_with_zero.md R88: `DECWOZ.D` and `DECWZ.D`, as
`DecodeBinary32Completes` with OP 101 or 111 and a binary64 result. -/
def Obligations.DecodeBinary64Completes : Prop :=
  (∀ (bits : WidthField) (opnd : Data),
    decode ⟨0b101#3 ++ bits, opnd⟩ = .decwozD bits opnd ∧ decode ⟨0b111#3 ++ bits, opnd⟩ = .decwzD bits opnd) ∧
  (∀ (bits : WidthField) (opnd : Data) (s : State), s.rsp = none →
    ∀ i, (i = .decwozD bits opnd ∨ i = .decwzD bits opnd) →
      exec i s = .next
        { rsp := some (if 2 ≤ bits.toNat ∧ bits.toNat ≤ 32 then ⟨exactDecode .D opnd bits.toNat, 0#1⟩ else ⟨0#64, 1#1⟩),
          inputs := s.inputs, offer := s.offer }) ∧
  exactDecode .D 0x00000000FFFFFFFF#64 3 = 0xBFD5555555555555#64 ∧
  exactDecode .D 0x0000000000003039#64 16 = 0x3FD81CB0396072C1#64

/-- spec/60_exceptions.md R95: InvalidBitWidth is raised by every one of the eight commands exactly when `e` is 0, 1 or 33 to
63, as `rsp_err = 1`; it records no further value. -/
def Obligations.InvalidBitWidthExactlyOnIllegalWidth : Prop :=
  ∀ (i : Instr) (s : State), s.rsp = none →
    ((i.bits.toNat = 0 ∨ i.bits.toNat = 1 ∨ (33 ≤ i.bits.toNat ∧ i.bits.toNat ≤ 63)) →
      exec i s = .next { rsp := some ⟨0#64, 1#1⟩, inputs := s.inputs, offer := s.offer }) ∧
    ((2 ≤ i.bits.toNat ∧ i.bits.toNat ≤ 32) →
      ∃ d, exec i s = .next { rsp := some ⟨d, 0#1⟩, inputs := s.inputs, offer := s.offer })

/-- spec/60_exceptions.md R96: a failing command completes in the usual way and time with `rsp_data = 0`, `rsp_err = 1`, and
after its response is taken the block is as if it had never been sent. -/
def Obligations.FailingCommandLeavesNothing : Prop :=
  ∀ (c : Command) (ready : Bit) (rest : List InputPins), ¬ LegalBits (decode c).bits →
    let s : State := { rsp := none, inputs := offerCycle c ready :: idleCycle 1#1 :: rest, offer := none }
    runCycles 1 s = some { rsp := some ⟨0#64, 1#1⟩, inputs := idleCycle 1#1 :: rest, offer := none } ∧
    takenResponses (edgesOf 2 s) = [⟨0#64, 1#1⟩] ∧
    runCycles 2 s = some { rsp := none, inputs := rest, offer := none }

/-- spec/30_encoding.md section 2 and spec/60_exceptions.md section 2: bits 63:32 of the operand never change the answer of a
binary32 encode or of a decode, and with an illegal width no operand bit does. -/
def Obligations.IgnoredOperandBits : Prop :=
  ∀ (cmd : CmdWord) (a b : Data),
    ((cmd.toNat / 256 % 2 = 0 ∨ cmd.toNat / 64 % 2 = 1) → a.extractLsb' 0 32 = b.extractLsb' 0 32 →
      execute ⟨cmd, a⟩ = execute ⟨cmd, b⟩) ∧
    ((cmd.toNat % 64 < 2 ∨ 32 < cmd.toNat % 64) → execute ⟨cmd, a⟩ = execute ⟨cmd, b⟩)

/-- spec/40_common_numerics.md section 4: every encode answers a code in [-s, s], in bits 31:0 with bits 63:32 zero; it is the
sign extension of its low `e` bits, and the word of `-2^(e-1)` is never produced. -/
def Obligations.CodesFitTheirWidth : Prop :=
  ∀ (m : Mnemonic) (bits : WidthField) (opnd : Data) (s : State),
    m.dir = .encode → LegalBits bits → s.rsp = none →
    ∃ d, resultOf (m.instr bits opnd) s = some ⟨d, 0#1⟩ ∧ d.extractLsb' 32 32 = 0#32 ∧
      -(stepCount bits.toNat : Int) ≤ codeOf d ∧ codeOf d ≤ (stepCount bits.toNat : Int) ∧
      ((d.setWidth bits.toNat).signExtend 32 = d.extractLsb' 0 32) ∧
      codeOf d ≠ -(2 : Int) ^ (bits.toNat - 1)

/-- spec/40_common_numerics.md R57: an input at or above 1.0, +inf included, encodes to `s`; one at or below -1.0, -inf
included, to `-s`; no code lies outside [-s, s]; inside [-1, 1] the clamp changes nothing. -/
def Obligations.EncodeSaturatesAtOne : Prop :=
  ∀ (m : Mnemonic) (bits : WidthField) (opnd : Data) (s : State),
    m.dir = .encode → LegalBits bits → s.rsp = none →
    ∃ d, resultOf (m.instr bits opnd) s = some ⟨d, 0#1⟩ ∧
      (floatOperand m.prec opnd = .inf false → codeOf d = (stepCount bits.toNat : Int)) ∧
      (floatOperand m.prec opnd = .inf true → codeOf d = -(stepCount bits.toNat : Int)) ∧
      (-(stepCount bits.toNat : Int) ≤ codeOf d ∧ codeOf d ≤ (stepCount bits.toNat : Int)) ∧
      ∀ v, busValue m.prec opnd = some v →
        (1 ≤ v → codeOf d = (stepCount bits.toNat : Int)) ∧
        (v ≤ -1 → codeOf d = -(stepCount bits.toNat : Int)) ∧
        (-1 ≤ v → v ≤ 1 → codeOf d = rha (v * (stepCount bits.toNat : ℚ)))

/-- spec/40_common_numerics.md R60: every NaN, quiet or signalling, of either sign and any payload, encodes to code 0 with
`rsp_err = 0`. -/
def Obligations.NanEncodesToZero : Prop :=
  ∀ (m : Mnemonic) (bits : WidthField) (opnd : Data) (s : State),
    m.dir = .encode → LegalBits bits → s.rsp = none → floatOperand m.prec opnd = .nan →
    resultOf (m.instr bits opnd) s = some ⟨0#64, 0#1⟩

/-- spec/40_common_numerics.md section 3: the code of a value in [-1, 1] is an integer nearest to the exact product `v * s`,
and on a tie the one farther from zero. -/
def Obligations.EncodeRoundsHalfAwayFromZero : Prop :=
  ∀ (m : Mnemonic) (bits : WidthField) (opnd : Data) (s : State) (v : ℚ),
    m.dir = .encode → LegalBits bits → s.rsp = none →
    busValue m.prec opnd = some v → -1 ≤ v → v ≤ 1 →
    ∃ d, resultOf (m.instr bits opnd) s = some ⟨d, 0#1⟩ ∧
      |(codeOf d : ℚ) - v * (stepCount bits.toNat : ℚ)| ≤ 1 / 2 ∧
      (|(codeOf d : ℚ) - v * (stepCount bits.toNat : ℚ)| = 1 / 2 →
        |v * (stepCount bits.toNat : ℚ)| < |(codeOf d : ℚ)|)

/-- spec/40_common_numerics.md R63: a decode reads all 32 bits as a signed code; a code at or above `s` decodes to exactly +1.0
and one at or below `-s` to exactly -1.0, so the clamp changes nothing inside [-s, s]. -/
def Obligations.DecodeSaturatesAtStepCount : Prop :=
  ∀ (m : Mnemonic) (bits : WidthField) (opnd : Data) (s : State),
    m.dir = .decode → LegalBits bits → s.rsp = none →
    ((stepCount bits.toNat : Int) ≤ codeOf opnd →
      resultOf (m.instr bits opnd) s = some ⟨onePattern m.prec, 0#1⟩) ∧
    (codeOf opnd ≤ -(stepCount bits.toNat : Int) →
      resultOf (m.instr bits opnd) s = some ⟨minusOnePattern m.prec, 0#1⟩) ∧
    (-(stepCount bits.toNat : Int) ≤ codeOf opnd → codeOf opnd ≤ (stepCount bits.toNat : Int) →
      resultOf (m.instr bits opnd) s =
        some ⟨decodePattern m.prec (codeOf opnd) (stepCount bits.toNat), 0#1⟩)

/-- spec/40_common_numerics.md section 5: the value of a decode is a finite float of the result format, and no float of that
format is nearer to the exact quotient `cc / s`. -/
def Obligations.DecodeIsNearestFloat : Prop :=
  ∀ (m : Mnemonic) (bits : WidthField) (opnd : Data) (s : State),
    m.dir = .decode → LegalBits bits → s.rsp = none →
    ∃ d v, resultOf (m.instr bits opnd) s = some ⟨d, 0#1⟩ ∧ busValue m.prec d = some v ∧
      ∀ d' v', busValue m.prec d' = some v' →
        |v - (clampCode (codeOf opnd) (stepCount bits.toNat) : ℚ) / (stepCount bits.toNat : ℚ)| ≤
        |v' - (clampCode (codeOf opnd) (stepCount bits.toNat) : ℚ) / (stepCount bits.toNat : ℚ)|

/-- spec/40_common_numerics.md section 5 (R66, which the spec derives): a decode is exact only for the clamped codes 0, `s` and
`-s`, and no other float is as near to the quotient as the one it answers, so no tie ever occurs. -/
def Obligations.DecodeIsExactOnlyAtThreeCodes : Prop :=
  ∀ (m : Mnemonic) (bits : WidthField) (opnd : Data) (s : State),
    m.dir = .decode → LegalBits bits → s.rsp = none →
    ∃ d v, resultOf (m.instr bits opnd) s = some ⟨d, 0#1⟩ ∧ busValue m.prec d = some v ∧
      (v = (clampCode (codeOf opnd) (stepCount bits.toNat) : ℚ) / (stepCount bits.toNat : ℚ) ↔
        (clampCode (codeOf opnd) (stepCount bits.toNat) = 0 ∨
         clampCode (codeOf opnd) (stepCount bits.toNat) = (stepCount bits.toNat : Int) ∨
         clampCode (codeOf opnd) (stepCount bits.toNat) = -(stepCount bits.toNat : Int))) ∧
      ∀ d' v', busValue m.prec d' = some v' →
        |v' - (clampCode (codeOf opnd) (stepCount bits.toNat) : ℚ) / (stepCount bits.toNat : ℚ)| =
        |v - (clampCode (codeOf opnd) (stepCount bits.toNat) : ℚ) / (stepCount bits.toNat : ℚ)| → v' = v

/-! ## Properties that follow -/

/-- spec/40_common_numerics.md section 6 (R67, which the spec derives): encode of +1.0, -1.0 and both zeros, decode of `s`, `-s`
and 0, for every width, scheme and precision, so that these round trips are bit-exact. -/
def Obligations.FixedPointsAtExtremesAndZero : Prop :=
  ∀ (P : Precision) (sch : Scheme) (bits : WidthField) (s : State), LegalBits bits → s.rsp = none →
    let plus : Data := zext64 (twos32 (stepCount bits.toNat : Int))
    let minus : Data := zext64 (twos32 (-(stepCount bits.toNat : Int)))
    let enc := fun opnd => resultOf (Mnemonic.instr ⟨P, sch, .encode⟩ bits opnd) s
    let dec := fun opnd => resultOf (Mnemonic.instr ⟨P, sch, .decode⟩ bits opnd) s
    enc (onePattern P) = some ⟨plus, 0#1⟩ ∧ enc (minusOnePattern P) = some ⟨minus, 0#1⟩ ∧
    enc 0#64 = some ⟨0#64, 0#1⟩ ∧ enc (signBit P) = some ⟨0#64, 0#1⟩ ∧
    dec plus = some ⟨onePattern P, 0#1⟩ ∧ dec minus = some ⟨minusOnePattern P, 0#1⟩ ∧
    dec 0#64 = some ⟨0#64, 0#1⟩

/-- spec/40_common_numerics.md section 6 (R68, which the spec derives): for one width and precision, encode is non-decreasing
over all operands that are not NaN, the infinities included. -/
def Obligations.EncodeIsMonotone : Prop :=
  ∀ (m : Mnemonic) (bits : WidthField) (a b : Data) (s : State),
    m.dir = .encode → LegalBits bits → s.rsp = none →
    floatLe (floatOperand m.prec a) (floatOperand m.prec b) →
    ∃ da db, resultOf (m.instr bits a) s = some ⟨da, 0#1⟩ ∧ resultOf (m.instr bits b) s = some ⟨db, 0#1⟩ ∧
      codeOf da ≤ codeOf db

/-- spec/40_common_numerics.md section 6 (R68, which the spec derives): for one width and precision, decode is non-decreasing
in the signed code over all code words. -/
def Obligations.DecodeIsMonotone : Prop :=
  ∀ (m : Mnemonic) (bits : WidthField) (a b : Data) (s : State),
    m.dir = .decode → LegalBits bits → s.rsp = none → codeOf a ≤ codeOf b →
    ∃ da db va vb, resultOf (m.instr bits a) s = some ⟨da, 0#1⟩ ∧ resultOf (m.instr bits b) s = some ⟨db, 0#1⟩ ∧
      busValue m.prec da = some va ∧ busValue m.prec db = some vb ∧ va ≤ vb

/-- spec/40_common_numerics.md section 6 (R69, which the spec derives): flipping the sign bit of an operand that is not NaN
negates the code, and negating a code other than 0x80000000 flips only the sign bit of the result, but for the code 0. -/
def Obligations.OddSymmetryOfBothDirections : Prop :=
  ∀ (P : Precision) (sch : Scheme) (bits : WidthField) (s : State), LegalBits bits → s.rsp = none →
    (∀ w : Data, floatOperand P w ≠ .nan →
      ∃ d d', resultOf (Mnemonic.instr ⟨P, sch, .encode⟩ bits w) s = some ⟨d, 0#1⟩ ∧
        resultOf (Mnemonic.instr ⟨P, sch, .encode⟩ bits (w ^^^ signBit P)) s = some ⟨d', 0#1⟩ ∧
        codeOf d' = -codeOf d) ∧
    (∀ a b : Data, codeOf a ≠ -(2 : Int) ^ 31 → codeOf a ≠ 0 → codeOf b = -codeOf a →
      ∃ d, resultOf (Mnemonic.instr ⟨P, sch, .decode⟩ bits a) s = some ⟨d, 0#1⟩ ∧
        resultOf (Mnemonic.instr ⟨P, sch, .decode⟩ bits b) s = some ⟨d ^^^ signBit P, 0#1⟩) ∧
    (∀ a : Data, codeOf a = 0 →
      resultOf (Mnemonic.instr ⟨P, sch, .decode⟩ bits a) s = some ⟨0#64, 0#1⟩)

/-- spec/40_common_numerics.md section 6 (R70, which the spec derives): the code of a finite value in [-1, 1], divided exactly by
`s`, is within `1 / (2s)` of the value, and the decode's rounding adds a relative error of at most 2^-24 or 2^-53. -/
def Obligations.RoundTripErrorBound : Prop :=
  ∀ (P : Precision) (sch : Scheme) (bits : WidthField) (w : Data) (s : State) (v : ℚ),
    LegalBits bits → s.rsp = none → busValue P w = some v → -1 ≤ v → v ≤ 1 →
    ∃ d d' v', resultOf (Mnemonic.instr ⟨P, sch, .encode⟩ bits w) s = some ⟨d, 0#1⟩ ∧
      resultOf (Mnemonic.instr ⟨P, sch, .decode⟩ bits d) s = some ⟨d', 0#1⟩ ∧ busValue P d' = some v' ∧
      |(codeOf d : ℚ) / (stepCount bits.toNat : ℚ) - v| ≤ 1 / (2 * (stepCount bits.toNat : ℚ)) ∧
      |v' - (codeOf d : ℚ) / (stepCount bits.toNat : ℚ)| ≤
        |(codeOf d : ℚ) / (stepCount bits.toNat : ℚ)| / 2 ^ (fracWidth P + 1)

/-- spec/40_common_numerics.md section 6 (R71, which the spec derives): a code in [-s, s] decodes to a float that encodes back to
it, in binary64 for every width and in binary32 for every width up to 24. -/
def Obligations.CodeRoundTrip : Prop :=
  ∀ (P : Precision) (sch : Scheme) (bits : WidthField) (c : Data) (s : State),
    LegalBits bits → (P = .D ∨ bits.toNat ≤ 24) → s.rsp = none →
    -(stepCount bits.toNat : Int) ≤ codeOf c → codeOf c ≤ (stepCount bits.toNat : Int) →
    ∃ d, resultOf (Mnemonic.instr ⟨P, sch, .decode⟩ bits c) s = some ⟨d, 0#1⟩ ∧
      resultOf (Mnemonic.instr ⟨P, sch, .encode⟩ bits d) s = some ⟨zext64 (c.extractLsb' 0 32), 0#1⟩

/-- spec/40_common_numerics.md section 6 (R71): at `e = 26` in binary32 the round trip fails: code 16777218 decodes to
0x3F000001, and that encodes to 16777217. -/
def Obligations.CodeRoundTripFailsAtWidth26 : Prop :=
  resultOf (.decwozS 26 16777218#64) State.reset = some ⟨0x3F000001#64, 0#1⟩ ∧
  resultOf (.encwozS 26 0x3F000001#64) State.reset = some ⟨16777217#64, 0#1⟩

/-- spec/40_common_numerics.md section 6 (R72) as the rounding rule R64 gives it, log entry 15: in binary32 the code `s - 1`
decodes to 1.0 for every width from 27 up and to the next float below for width 26; at width 32 the codes `s - 63` to `s` all
decode to 1.0 and `s - 64` does not. -/
def Obligations.Binary32DecodeReachesOneEarly : Prop :=
  (∀ (sch : Scheme) (bits : WidthField) (s : State), 27 ≤ bits.toNat → bits.toNat ≤ 32 → s.rsp = none →
    resultOf (Mnemonic.instr ⟨.S, sch, .decode⟩ bits (zext64 (twos32 ((stepCount bits.toNat : Int) - 1)))) s =
      some ⟨0x3F800000#64, 0#1⟩) ∧
  (∀ (sch : Scheme) (s : State), s.rsp = none →
    resultOf (Mnemonic.instr ⟨.S, sch, .decode⟩ 26 (zext64 (twos32 ((stepCount 26 : Int) - 1)))) s =
      some ⟨0x3F7FFFFF#64, 0#1⟩) ∧
  (∀ (sch : Scheme) (s : State) (c : Data), s.rsp = none →
    (stepCount 32 : Int) - 63 ≤ codeOf c →
    resultOf (Mnemonic.instr ⟨.S, sch, .decode⟩ 32 c) s = some ⟨0x3F800000#64, 0#1⟩) ∧
  (∀ (sch : Scheme) (s : State) (c : Data), s.rsp = none → codeOf c = (stepCount 32 : Int) - 64 →
    resultOf (Mnemonic.instr ⟨.S, sch, .decode⟩ 32 c) s = some ⟨0x3F7FFFFF#64, 0#1⟩)

/-- spec/42_scheme_b_with_zero.md section 3 (R89, which the spec derives): the two schemes answer alike for every precision,
direction, width, legal or not, operand and state. -/
def Obligations.SchemesAnswerAlike : Prop :=
  ∀ (P : Precision) (dir : Direction) (bits : WidthField) (opnd : Data) (s : State), s.rsp = none →
    ∃ r, exec (Mnemonic.instr ⟨P, .A, dir⟩ bits opnd) s =
        .next { rsp := some r, inputs := s.inputs, offer := s.offer } ∧
      exec (Mnemonic.instr ⟨P, .B, dir⟩ bits opnd) s =
        .next { rsp := some r, inputs := s.inputs, offer := s.offer }

/-- The document's concrete scenarios (spec/41_scheme_a_without_zero.md section 3, spec/42_scheme_b_with_zero.md section 3,
and the failing widths of spec/60_exceptions.md section 1). -/
def Obligations.DocumentScenarios : Prop :=
  resultOf (.encwozS 2 0x3F800000#64) State.reset = some ⟨1#64, 0#1⟩ ∧
  resultOf (.encwozS 2 0xBF800000#64) State.reset = some ⟨0xFFFFFFFF#64, 0#1⟩ ∧
  resultOf (.decwozS 2 1#64) State.reset = some ⟨0x3F800000#64, 0#1⟩ ∧
  resultOf (.decwozS 2 0xFFFFFFFF#64) State.reset = some ⟨0xBF800000#64, 0#1⟩ ∧
  resultOf (.encwzD 8 0#64) State.reset = some ⟨0#64, 0#1⟩ ∧
  resultOf (.encwzD 8 0x3FF0000000000000#64) State.reset = some ⟨127#64, 0#1⟩ ∧
  resultOf (.encwzD 8 0xBFF0000000000000#64) State.reset = some ⟨0xFFFFFF81#64, 0#1⟩ ∧
  resultOf (.encwozS 1 0x3F000000#64) State.reset = some ⟨0#64, 1#1⟩ ∧
  resultOf (.encwozS 33 0x3F000000#64) State.reset = some ⟨0#64, 1#1⟩

/-! ## The assembler -/

/-- spec/30_encoding.md R50: for each mnemonic and each N from 2 to 32 the pseudo-command is the core command of that width, one
for every legal command word; none exists for an illegal width. -/
def Obligations.PseudoCommandsAreFixedWidthForms : Prop :=
  (∀ (m : Mnemonic) (n : Nat) (l : Literal), 2 ≤ n → n ≤ 32 → l.wellFormed m.dir = true →
    assemble (.fixedWidth m n l) = assemble (.core m n l) ∧
    assemble (.core m n l) = some (encode (m.instr (BitVec.ofNat 6 n) (operandOf m l)))) ∧
  (∀ (m : Mnemonic) (n : Nat) (l : Literal), (n < 2 ∨ 32 < n) → assemble (.fixedWidth m n l) = none) ∧
  (∀ (c : Command), LegalBits (decode c).bits →
    ∃ m n, 2 ≤ n ∧ n ≤ 32 ∧ assemble (.fixedWidth m n (.hex ((List.range 16).map fun k => c.opnd.extractLsb' (60 - 4 * k) 4))) = some c ∧
      ∀ m' n', 2 ≤ n' → n' ≤ 32 → ∀ l c', assemble (.fixedWidth m' n' l) = some c' → c'.cmd = c.cmd → m' = m ∧ n' = n) ∧
  assembleLine ['E', 'N', 'C', 'W', 'O', 'Z', '8', '.', 'S', ' ', '0', '.', '5'] = some ⟨0x008#9, 0x3F000000#64⟩

/-- spec/30_encoding.md section 4, with the details of log entries 14 and 19: the example line `ENCWZ.S 8, 1.0` and lines of
each operand kind assemble to the commands the spec gives, the expected response after `->` is read and is what the
command answers, and a width above 63, a float for a decode and an arrow with nothing after it are no command. -/
def Obligations.AssemblerExamples : Prop :=
  assembleLine "ENCWZ.S 8, 1.0".toList = some ⟨0x088#9, 0x3F800000#64⟩ ∧
  assembleLine "ENCWZ.S 8, 1.0  -> 0x000000000000007F, 0".toList = some ⟨0x088#9, 0x3F800000#64⟩ ∧
  expectedResponse "ENCWZ.S 8, 1.0  -> 0x000000000000007F, 0".toList = some (execute ⟨0x088#9, 0x3F800000#64⟩) ∧
  (execute ⟨0x088#9, 0x3F800000#64⟩ = ⟨0x7F#64, 0#1⟩) ∧
  assembleLine "ENCWZ.S 8, 1.0 ->".toList = none ∧
  assembleLine "ENCWOZ.D 16, -0.5 ; a tie".toList = some ⟨0x110#9, 0xBFE0000000000000#64⟩ ∧
  assembleLine "DECWOZ.D 3, -1".toList = some ⟨0x143#9, 0xFFFFFFFF#64⟩ ∧
  assembleLine "ENCWOZ.S 12, 0x3E1CD39A".toList = some ⟨0x00C#9, 0x3E1CD39A#64⟩ ∧
  assembleLine "ENCWZ.S 64, 1.0".toList = none ∧
  assembleLine "DECWZ.S 8, 0.5".toList = none

/-- spec/30_encoding.md section 4: a decimal float literal stands for a nearest pattern of the command's precision; no finite
pattern is nearer. The choice on a tie is free (log entry 13), and a literal whose nearest lies beyond the largest finite
pattern is outside the statement (log entry 13). -/
def Obligations.FloatLiteralIsNearest : Prop :=
  ∀ (P : Precision) (negative : Bool) (num den : Nat), 0 < den →
    nearestMagnitude P num den < expMax P * 2 ^ fracWidth P →
    ∃ v, busValue P (floatLiteral P negative num den) = some v ∧
      ∀ d' v', busValue P d' = some v' →
        |v - (if negative then -1 else 1) * ((num : ℚ) / (den : ℚ))| ≤
        |v' - (if negative then -1 else 1) * ((num : ℚ) / (den : ℚ))|
end

