-- ==== Sys2Proof/Laws/State.lean ====
section
/-! SUPPORT. The small lemmas of the state and its updates: one per field per update. -/

namespace Sys2Proof.Machine

@[simp] theorem reset_rsp : State.reset.rsp = none := rfl
@[simp] theorem reset_inputs : State.reset.inputs = [] := rfl
@[simp] theorem reset_offer : State.reset.offer = none := rfl

@[simp] theorem setRsp_rsp (r : Option Response) (s : State) : (s.setRsp r).rsp = r := rfl
@[simp] theorem setRsp_inputs (r : Option Response) (s : State) : (s.setRsp r).inputs = s.inputs := rfl
@[simp] theorem setRsp_offer (r : Option Response) (s : State) : (s.setRsp r).offer = s.offer := rfl

@[simp] theorem emptyRsp_rsp (s : State) : s.emptyRsp.rsp = none := rfl
@[simp] theorem emptyRsp_inputs (s : State) : s.emptyRsp.inputs = s.inputs := rfl
@[simp] theorem emptyRsp_offer (s : State) : s.emptyRsp.offer = s.offer := rfl

@[simp] theorem nextCycle_rsp (o : Option Command) (s : State) : (s.nextCycle o).rsp = s.rsp := rfl
@[simp] theorem nextCycle_inputs (o : Option Command) (s : State) : (s.nextCycle o).inputs = s.inputs.tail := rfl
@[simp] theorem nextCycle_offer (o : Option Command) (s : State) : (s.nextCycle o).offer = o := rfl

/-- `withFetchWord` where the bits fit the ports: the command is offered in a new first cycle. -/
theorem withFetchWord_of_some {nbits w : Nat} {c : Command} (s : State) (h : commandOfBits nbits w = some c) :
    s.withFetchWord nbits w = { rsp := none, inputs := offerCycle c 0#1 :: s.inputs, offer := none } := by
  simp [State.withFetchWord, h]

end Sys2Proof.Machine
end

