-- ==== Sys2Proof/Laws/Ops.lean ====
section
/-! SUPPORT. What each shared operation can do, said once. -/

namespace Sys2Proof.Machine

theorem answer_of_empty {s : State} (h : s.rsp = none) (r : Response) : answer r s = .next (s.setRsp (some r)) := by
  simp [answer, h]

theorem answer_of_pending {s : State} {p : Response} (h : s.rsp = some p) (r : Response) : answer r s = .next s := by
  simp [answer, h]

/-- Everything `answer` can do. -/
theorem answer_cases (r : Response) (s : State) :
    (s.rsp = none ∧ answer r s = .next (s.setRsp (some r))) ∨ ((∃ p, s.rsp = some p) ∧ answer r s = .next s) := by
  cases h : s.rsp with
  | none => exact .inl ⟨rfl, answer_of_empty h r⟩
  | some p => exact .inr ⟨⟨p, rfl⟩, answer_of_pending h r⟩

/-- The response a command of the family `convert` gives. -/
def convertResponse (bits : WidthField) (result : Nat → Data) : Response :=
  if legalWidth (widthOf bits) then ⟨result (widthOf bits), errNone⟩ else ⟨0#64, errInvalidBitWidth⟩

/-- `convert` answers one response, chosen by the width. -/
theorem convert_eq_answer (bits : WidthField) (result : Nat → Data) (s : State) :
    convert bits result s = answer (convertResponse bits result) s := by
  unfold convert convertResponse respond raiseInvalidBitWidth
  split <;> rfl

/-- Everything `convert` can do in a state that can take a command. -/
theorem convert_of_empty {s : State} (h : s.rsp = none) (bits : WidthField) (result : Nat → Data) :
    convert bits result s = .next (s.setRsp (some (convertResponse bits result))) := by
  rw [convert_eq_answer, answer_of_empty h]

/-- Everything `convert` can do while a response is pending. -/
theorem convert_of_pending {s : State} {p : Response} (h : s.rsp = some p) (bits : WidthField) (result : Nat → Data) :
    convert bits result s = .next s := by
  rw [convert_eq_answer, answer_of_pending h]

theorem legalWidth_iff (e : Nat) : legalWidth e = true ↔ 2 ≤ e ∧ e ≤ 32 := by
  unfold legalWidth
  rw [Bool.and_eq_true, decide_eq_true_iff, decide_eq_true_iff]
  rfl

theorem widthOf_lt (bits : WidthField) : widthOf bits < 64 := bits.isLt

@[simp] theorem outputs_of_empty {s : State} (h : s.rsp = none) : s.outputs = ⟨1#1, 0#1, none, none⟩ := by
  simp [State.outputs, h]

theorem outputs_of_pending {s : State} {r : Response} (h : s.rsp = some r) :
    s.outputs = ⟨0#1, 1#1, some r.data, some r.err⟩ := by
  simp [State.outputs, h]

end Sys2Proof.Machine
end

