-- ==== Sys2Proof/Laws/Handshake.lean ====
section
/-! SUPPORT. What an edge and a step can do, said once. -/

namespace Sys2Proof.Machine

/-- Pins are sampled exactly where all five are defined, at their values. -/
theorem sample_eq_some_iff (p : InputPins) (q : Sample) :
    p.sample = some q ↔
      p.rst = some q.rst ∧ p.reqValid = some q.reqValid ∧ p.reqCmd = some q.reqCmd ∧
        p.reqOpnd = some q.reqOpnd ∧ p.rspReady = some q.rspReady := by
  obtain ⟨a, b, c, d, e⟩ := p
  obtain ⟨a', b', c', d', e'⟩ := q
  cases a <;> cases b <;> cases c <;> cases d <;> cases e <;> simp [InputPins.sample]

/-- Pins are not sampled exactly where one of the five is undefined. -/
theorem sample_eq_none_iff (p : InputPins) :
    p.sample = none ↔
      (p.rst = none ∨ p.reqValid = none ∨ p.reqCmd = none ∨ p.reqOpnd = none ∨ p.rspReady = none) := by
  obtain ⟨a, b, c, d, e⟩ := p
  cases a <;> cases b <;> cases c <;> cases d <;> cases e <;> simp [InputPins.sample]

@[simp] theorem sample_offerCycle (c : Command) (ready : Bit) :
    (offerCycle c ready).sample = some ⟨0#1, 1#1, c.cmd, c.opnd, ready⟩ := rfl

@[simp] theorem sample_idleCycle (ready : Bit) :
    (idleCycle ready).sample = some ⟨0#1, 0#1, 0#9, 0#64, ready⟩ := rfl

@[simp] theorem sample_resetCycle : resetCycle.sample = some ⟨1#1, 0#1, 0#9, 0#64, 0#1⟩ := rfl

/-- What a cycle offers. -/
theorem offered_eq_some_iff (q : Sample) (c : Command) :
    q.offered = some c ↔ q.reqValid = 1#1 ∧ c = ⟨q.reqCmd, q.reqOpnd⟩ := by
  unfold Sample.offered
  split <;> simp_all [eq_comm]

/-- Everything the edge of a sampled cycle can be. -/
theorem edge_cases (q : Sample) (rsp : Option Response) (standing : Option Command) :
    (q.rst = 1#1 ∧ q.edge rsp standing = .reset) ∨
    (q.rst ≠ 1#1 ∧ q.keepsOffer standing = false ∧ q.edge rsp standing = .offerBroken) ∨
    (q.rst ≠ 1#1 ∧ q.keepsOffer standing = true ∧
      ((rsp = none ∧ ∃ c, q.offered = some c ∧ q.edge rsp standing = .accept c) ∨
       (rsp = none ∧ q.offered = none ∧ q.edge rsp standing = .hold) ∨
       (∃ r, rsp = some r ∧ q.rspReady = 1#1 ∧ q.edge rsp standing = .deliver r) ∨
       (∃ r, rsp = some r ∧ q.rspReady ≠ 1#1 ∧ q.edge rsp standing = .hold))) := by
  unfold Sample.edge
  by_cases hr : q.rst = 1#1
  · simp [hr]
  · by_cases hk : q.keepsOffer standing = true
    · cases rsp with
      | none => cases ho : q.offered <;> simp [hr, hk]
      | some r => by_cases hy : q.rspReady = 1#1 <;> simp [hr, hk, hy]
    · simp [hr, hk]

theorem edgeOf_of_sample {s : State} {p : InputPins} {rest : List InputPins} {q : Sample}
    (hi : s.inputs = p :: rest) (hq : p.sample = some q) : edgeOf s = q.edge s.rsp s.offer := by
  simp [edgeOf, hi, hq]

theorem currentOffer_of_sample {s : State} {p : InputPins} {rest : List InputPins} {q : Sample}
    (hi : s.inputs = p :: rest) (hq : p.sample = some q) : currentOffer s = q.offered := by
  simp [currentOffer, hi, hq]

/-- An accepting edge happens only with `RSP` empty. -/
theorem rsp_none_of_accept {s : State} {c : Command} (h : edgeOf s = .accept c) : s.rsp = none := by
  unfold edgeOf at h
  split at h
  · cases h
  · split at h
    · cases h
    · rename_i q _
      rcases edge_cases q s.rsp s.offer with ⟨_, e⟩ | ⟨_, _, e⟩ | ⟨_, _, ⟨hn, _⟩ | ⟨hn, _⟩ | ⟨_, _, _, e⟩ | ⟨_, _, _, e⟩⟩
      · rw [h] at e; cases e
      · rw [h] at e; cases e
      · exact hn
      · exact hn
      · rw [h] at e; cases e
      · rw [h] at e; cases e

/-- A delivering edge delivers what `RSP` holds. -/
theorem rsp_some_of_deliver {s : State} {r : Response} (h : edgeOf s = .deliver r) : s.rsp = some r := by
  unfold edgeOf at h
  split at h
  · cases h
  · split at h
    · cases h
    · rename_i q _
      rcases edge_cases q s.rsp s.offer with
        ⟨_, e⟩ | ⟨_, _, e⟩ | ⟨_, _, ⟨_, _, _, e⟩ | ⟨_, _, e⟩ | ⟨_, hn, _, e⟩ | ⟨_, _, _, e⟩⟩ <;> rw [h] at e <;> cases e
      exact hn

theorem step_of_accept {s : State} {c : Command} (h : edgeOf s = .accept c) :
    step s = afterAccept (exec (decode c) s) := by
  unfold step
  rw [h]

theorem step_of_reset {s : State} (h : edgeOf s = .reset) : step s = .next (s.emptyRsp.nextCycle none) := by
  unfold step
  rw [h]

theorem step_of_deliver {s : State} {r : Response} (h : edgeOf s = .deliver r) :
    step s = .next (s.emptyRsp.nextCycle (currentOffer s)) := by
  unfold step
  rw [h]

theorem step_of_hold {s : State} (h : edgeOf s = .hold) : step s = .next (s.nextCycle (currentOffer s)) := by
  unfold step
  rw [h]

theorem step_of_noInput {s : State} (h : edgeOf s = .noInput) : step s = .next s := by
  unfold step
  rw [h]

theorem step_of_undefinedInput {s : State} (h : edgeOf s = .undefinedInput) : step s = .refused .undefinedInput := by
  unfold step
  rw [h]

theorem step_of_offerBroken {s : State} (h : edgeOf s = .offerBroken) : step s = .refused .offerBroken := by
  unfold step
  rw [h]

/-- What follows an accepted command that answers a next state. -/
theorem afterAccept_next (t : State) : afterAccept (.next t) = .next (t.nextCycle none) := rfl

/-- Everything a step can do when it answers a next state. -/
theorem step_cases {s t : State} (h : step s = .next t) :
    (edgeOf s = .noInput ∧ t = s) ∨
    (edgeOf s = .reset ∧ t = s.emptyRsp.nextCycle none) ∨
    (∃ c u, edgeOf s = .accept c ∧ s.rsp = none ∧ exec (decode c) s = .next u ∧ t = u.nextCycle none) ∨
    (∃ r, edgeOf s = .deliver r ∧ s.rsp = some r ∧ t = s.emptyRsp.nextCycle (currentOffer s)) ∨
    (edgeOf s = .hold ∧ t = s.nextCycle (currentOffer s)) := by
  unfold step at h
  split at h
  · next e => exact .inl ⟨e, by cases h; rfl⟩
  · cases h
  · cases h
  · next e => exact .inr (.inl ⟨e, by cases h; rfl⟩)
  · next c e =>
    unfold afterAccept at h
    split at h
    · next u hu => exact .inr (.inr (.inl ⟨c, u, e, rsp_none_of_accept e, hu, by cases h; rfl⟩))
    · cases h
    · cases h
  · next r e => exact .inr (.inr (.inr (.inl ⟨r, e, rsp_some_of_deliver e, by cases h; rfl⟩)))
  · next e => exact .inr (.inr (.inr (.inr ⟨e, by cases h; rfl⟩)))

end Sys2Proof.Machine
end

