-- ==== Sys2Proof/Laws/Numerics.lean ====
section
/-! SUPPORT. The small lemmas of the numeric functions. -/

namespace Sys2Proof.Machine

/-- spec/40_common_numerics.md R55: `s ≥ 1`. -/
theorem stepCount_pos {e : Nat} (h : 2 ≤ e) : 1 ≤ stepCount e := by
  have : 2 ^ 1 ≤ 2 ^ (e - 1) := Nat.pow_le_pow_right (by decide) (by omega)
  unfold stepCount
  omega

/-- spec/40_common_numerics.md R55: `s` is odd. -/
theorem stepCount_odd {e : Nat} (h : 2 ≤ e) : stepCount e % 2 = 1 := by
  obtain ⟨k, rfl⟩ : ∃ k, e = k + 2 := ⟨e - 2, by omega⟩
  have : 1 ≤ 2 ^ k := Nat.one_le_two_pow
  simp only [stepCount, show k + 2 - 1 = k + 1 by omega, pow_succ]
  omega

/-- spec/40_common_numerics.md R55: `s ≤ 2^31 - 1`. -/
theorem stepCount_le {e : Nat} (h : e ≤ 32) : stepCount e ≤ 2 ^ 31 - 1 := by
  have : 2 ^ (e - 1) ≤ 2 ^ 31 := Nat.pow_le_pow_right (by decide) (by omega)
  unfold stepCount
  omega

theorem le_clampCode (c : Int) (s : Nat) : -(s : Int) ≤ clampCode c s := by
  unfold clampCode; omega

theorem clampCode_le (c : Int) (s : Nat) : clampCode c s ≤ (s : Int) := by
  unfold clampCode; omega

theorem clampCode_of_mem {c : Int} {s : Nat} (h1 : -(s : Int) ≤ c) (h2 : c ≤ (s : Int)) : clampCode c s = c := by
  unfold clampCode; omega

theorem clampCode_neg (c : Int) (s : Nat) : clampCode (-c) s = -clampCode c s := by
  unfold clampCode; omega

theorem clampCode_mono {c d : Int} (h : c ≤ d) (s : Nat) : clampCode c s ≤ clampCode d s := by
  unfold clampCode; omega

/-- The rounded magnitude is at most `s` (spec/40_common_numerics.md R62). -/
theorem encodeMagnitude_le {m s : Nat} {x : Int} : encodeMagnitude m x s ≤ s := by
  unfold encodeMagnitude
  split
  · exact Nat.zero_le s
  · simp only
    split
    · exact le_rfl
    · rename_i h0 h
      push Not at h
      obtain ⟨hx, hm⟩ := h
      have hk : (-x).toNat - 1 + 1 = (-x).toNat := by omega
      have h2 : 2 ^ (-x).toNat = 2 * 2 ^ ((-x).toNat - 1) := by rw [← hk, pow_succ]; simp; ring
      rw [← Nat.lt_add_one_iff, Nat.div_lt_iff_lt_mul (by positivity)]
      by_cases hs : s = 0
      · subst hs
        have : 0 < 2 ^ ((-x).toNat - 1) := by positivity
        omega
      · have h3 : m * s ≤ (2 ^ (-x).toNat - 1) * s := Nat.mul_le_mul_right _ (by omega)
        have h4 : (2 ^ (-x).toNat - 1) * s + s = 2 ^ (-x).toNat * s := by
          rw [← Nat.succ_mul]; congr 1; omega
        have h5 : (s + 1) * 2 ^ (-x).toNat = 2 ^ (-x).toNat * s + 2 ^ (-x).toNat := by ring
        have h6 : 0 < 2 ^ ((-x).toNat - 1) := by positivity
        omega

/-- The code of every float lies in `[-s, s]` (spec/40_common_numerics.md R62). -/
theorem encodeCode_mem (f : FloatVal) (e : Nat) :
    -(stepCount e : Int) ≤ encodeCode f e ∧ encodeCode f e ≤ (stepCount e : Int) := by
  unfold encodeCode
  split
  · omega
  · split <;> omega
  · next _ m x =>
    have : encodeMagnitude m x (stepCount e) ≤ stepCount e := encodeMagnitude_le
    split <;> omega

/-- The least doubling that brings `n` to `s`, when the fuel reaches it (spec/40_common_numerics.md R64). -/
theorem normalShift_spec : ∀ (fuel n s : Nat), s ≤ n * 2 ^ fuel →
    s ≤ n * 2 ^ normalShift n s fuel ∧ normalShift n s fuel ≤ fuel ∧
      ∀ j, j < normalShift n s fuel → n * 2 ^ j < s
  | 0, n, s, h => by simpa [normalShift] using h
  | fuel + 1, n, s, h => by
    unfold normalShift
    split
    · next hs => simpa using hs
    · next hs =>
      have hf : s ≤ 2 * n * 2 ^ fuel := by rw [pow_succ] at h; linarith
      obtain ⟨h1, h2, h3⟩ := normalShift_spec fuel (2 * n) s hf
      refine ⟨by rw [pow_succ]; linarith, by omega, fun j hj => ?_⟩
      cases j with
      | zero => simpa using hs
      | succ j =>
        have := h3 j (by omega)
        rw [pow_succ]
        linarith

end Sys2Proof.Machine
end

