-- ==== Sys2Proof/Laws/PerInstr.lean ====
section
/-! SUPPORT. Per-command facts about the encoding: one lemma per constructor of `Instr`. -/

namespace Sys2Proof.Laws

/-- The encoded word carries the BITS field in bits 5:0 and the operand unchanged (spec/30_encoding.md R41). -/
def EncodedFields.Statement (i : Instr) : Prop :=
  fieldBits (encode i).cmd = i.bits ∧ (encode i).opnd = i.opnd

theorem fieldBits_commandWord (op : BitVec 3) (bits : WidthField) : fieldBits (commandWord op bits) = bits :=
  BitVec.extractLsb'_append_eq_right

theorem EncodedFields.encwozS (bits : WidthField) (opnd : Data) : EncodedFields.Statement (.encwozS bits opnd) :=
  ⟨fieldBits_commandWord _ bits, rfl⟩

theorem EncodedFields.decwozS (bits : WidthField) (opnd : Data) : EncodedFields.Statement (.decwozS bits opnd) :=
  ⟨fieldBits_commandWord _ bits, rfl⟩

theorem EncodedFields.encwzS (bits : WidthField) (opnd : Data) : EncodedFields.Statement (.encwzS bits opnd) :=
  ⟨fieldBits_commandWord _ bits, rfl⟩

theorem EncodedFields.decwzS (bits : WidthField) (opnd : Data) : EncodedFields.Statement (.decwzS bits opnd) :=
  ⟨fieldBits_commandWord _ bits, rfl⟩

theorem EncodedFields.encwozD (bits : WidthField) (opnd : Data) : EncodedFields.Statement (.encwozD bits opnd) :=
  ⟨fieldBits_commandWord _ bits, rfl⟩

theorem EncodedFields.decwozD (bits : WidthField) (opnd : Data) : EncodedFields.Statement (.decwozD bits opnd) :=
  ⟨fieldBits_commandWord _ bits, rfl⟩

theorem EncodedFields.encwzD (bits : WidthField) (opnd : Data) : EncodedFields.Statement (.encwzD bits opnd) :=
  ⟨fieldBits_commandWord _ bits, rfl⟩

theorem EncodedFields.decwzD (bits : WidthField) (opnd : Data) : EncodedFields.Statement (.decwzD bits opnd) :=
  ⟨fieldBits_commandWord _ bits, rfl⟩

end Sys2Proof.Laws
end

