-- ==== Sys2Proof/Laws/Trace.lean ====
section
/-! SUPPORT. The small lemmas of runs. -/

namespace Sys2Proof.Machine

@[simp] theorem runCycles_zero (s : State) : runCycles 0 s = some s := rfl
@[simp] theorem edgesOf_zero (s : State) : edgesOf 0 s = [] := rfl

theorem runCycles_succ {s t : State} (h : step s = .next t) (n : Nat) : runCycles (n + 1) s = runCycles n t := by
  simp [runCycles, h]

theorem edgesOf_succ {s t : State} (h : step s = .next t) (n : Nat) : edgesOf (n + 1) s = edgeOf s :: edgesOf n t := by
  simp [edgesOf, h]

/-- A run of `n + 1` cycles is a step and a run of `n` cycles. -/
theorem runCycles_succ_eq_some {n : Nat} {s t : State} (h : runCycles (n + 1) s = some t) :
    ∃ u, step s = .next u ∧ runCycles n u = some t := by
  unfold runCycles at h
  split at h
  · next u hu => exact ⟨u, hu, h⟩
  · cases h
  · cases h

@[simp] theorem acceptedCommands_nil : acceptedCommands [] = [] := rfl
@[simp] theorem takenResponses_nil : takenResponses [] = [] := rfl

@[simp] theorem acceptedCommands_noInput (es : List Edge) :
    acceptedCommands (.noInput :: es) = acceptedCommands es := rfl
@[simp] theorem takenResponses_noInput (es : List Edge) :
    takenResponses (.noInput :: es) = takenResponses es := rfl
@[simp] theorem acceptedCommands_undefinedInput (es : List Edge) :
    acceptedCommands (.undefinedInput :: es) = acceptedCommands es := rfl
@[simp] theorem takenResponses_undefinedInput (es : List Edge) :
    takenResponses (.undefinedInput :: es) = takenResponses es := rfl
@[simp] theorem acceptedCommands_offerBroken (es : List Edge) :
    acceptedCommands (.offerBroken :: es) = acceptedCommands es := rfl
@[simp] theorem takenResponses_offerBroken (es : List Edge) :
    takenResponses (.offerBroken :: es) = takenResponses es := rfl
@[simp] theorem acceptedCommands_reset (es : List Edge) :
    acceptedCommands (.reset :: es) = acceptedCommands es := rfl
@[simp] theorem takenResponses_reset (es : List Edge) :
    takenResponses (.reset :: es) = takenResponses es := rfl
@[simp] theorem acceptedCommands_accept (c : Command) (es : List Edge) :
    acceptedCommands (.accept c :: es) = c :: acceptedCommands es := rfl
@[simp] theorem takenResponses_accept (c : Command) (es : List Edge) :
    takenResponses (.accept c :: es) = takenResponses es := rfl
@[simp] theorem acceptedCommands_deliver (r : Response) (es : List Edge) :
    acceptedCommands (.deliver r :: es) = acceptedCommands es := rfl
@[simp] theorem takenResponses_deliver (r : Response) (es : List Edge) :
    takenResponses (.deliver r :: es) = r :: takenResponses es := rfl
@[simp] theorem acceptedCommands_hold (es : List Edge) :
    acceptedCommands (.hold :: es) = acceptedCommands es := rfl
@[simp] theorem takenResponses_hold (es : List Edge) :
    takenResponses (.hold :: es) = takenResponses es := rfl

@[simp] theorem transitionOf_noInput : transitionOf .noInput = none := rfl
@[simp] theorem transitionOf_undefinedInput : transitionOf .undefinedInput = none := rfl
@[simp] theorem transitionOf_offerBroken : transitionOf .offerBroken = none := rfl
@[simp] theorem transitionOf_reset : transitionOf .reset = some .reset := rfl
@[simp] theorem transitionOf_accept (c : Command) : transitionOf (.accept c) = some (.accept c) := rfl
@[simp] theorem transitionOf_deliver (r : Response) : transitionOf (.deliver r) = some .deliver := rfl
@[simp] theorem transitionOf_hold : transitionOf .hold = none := rfl

@[simp] theorem offersNothing_offerCycle (c : Command) (ready : Bit) : (offerCycle c ready).offersNothing = false := rfl
@[simp] theorem offersNothing_idleCycle (ready : Bit) : (idleCycle ready).offersNothing = true := rfl
@[simp] theorem offersNothing_resetCycle : resetCycle.offersNothing = true := rfl

/-- A run is over exactly when no offer is to come, none stands and no response is left (log entry 18). -/
theorem runOver_eq_true_iff (s : State) :
    runOver s = true ↔ (∀ p ∈ s.inputs, p.reqValid = some 0#1) ∧ s.offer = none ∧ s.rsp = none := by
  simp [runOver, State.quiescent, InputPins.offersNothing, and_assoc]

@[simp] theorem takingCycle_none (early : Bool) : takingCycle none early = idleCycle 1#1 := rfl
@[simp] theorem takingCycle_late (next : Option Command) : takingCycle next false = idleCycle 1#1 := by
  cases next <;> rfl
@[simp] theorem takingCycle_early (c : Command) : takingCycle (some c) true = offerCycle c 1#1 := rfl

@[simp] theorem backToBack_nil : backToBack [] = [] := rfl
@[simp] theorem backToBack_cons (c : Command) (early : Bool) (later : List (Command × Bool)) :
    backToBack ((c, early) :: later) =
      offerCycle c 1#1 :: takingCycle (later.head?.map Prod.fst) early :: backToBack later := rfl

end Sys2Proof.Machine
end

