-- ==== Sys2Proof/Tests/Slice0.lean ====
section
/-! SUPPORT. The session's own tests: ill-formed terms, decoding of written-out words, one step per command with expected
answers from spec/95_test_vectors.md, and for each statement with hypotheses a concrete case that meets them. -/

namespace Sys2Proof.Tests

open Sys2Proof Sys2Proof.Machine

/-! ## Helpers -/

/-- An empty block that is offered one command. -/
def offering (c : Command) : State := { rsp := none, inputs := [offerCycle c 0#1], offer := none }

/-- A block with a pending response and one more cycle of input. -/
def pendingWith (r : Response) (p : InputPins) : State := { rsp := some r, inputs := [p], offer := none }

/-- `RSP` after one step. -/
def rspAfter (s : State) : Option Response :=
  match step s with
  | .next t => t.rsp
  | .fault _ => none
  | .refused _ => none

/-- The answer a command word and an operand leave in `RSP` after one step. -/
def answerTo (w : CmdWord) (d : Data) : Option Response := rspAfter (offering ⟨w, d⟩)

/-- An empty block with nothing more to come. -/
def idle : State := State.reset

/-! ## Ill-formed terms are refused by the checks -/

theorem test_width_one_ill_formed : (Instr.encwozS 1 0).wellFormed = false := by decide
theorem test_width_thirty_three_ill_formed : (Instr.decwzD 33 0).wellFormed = false := by decide
theorem test_width_two_well_formed : (Instr.encwozS 2 0).wellFormed = true := by decide
theorem test_width_thirty_two_well_formed : (Instr.decwzD 32 0).wellFormed = true := by decide
theorem test_source_width_64_ill_formed :
    (Source.core ⟨.S, .A, .encode⟩ 64 (.float false 1 0)).wellFormed = false := by decide
theorem test_pseudo_width_1_ill_formed :
    (Source.fixedWidth ⟨.S, .A, .encode⟩ 1 (.float false 1 0)).wellFormed = false := by decide
theorem test_pseudo_width_33_ill_formed :
    (Source.fixedWidth ⟨.S, .A, .encode⟩ 33 (.float false 1 0)).wellFormed = false := by decide
theorem test_no_hex_digit_ill_formed : (Literal.hex []).wellFormed .encode = false := by decide
theorem test_seventeen_hex_digits_ill_formed : (Literal.hex (List.replicate 17 1)).wellFormed .encode = false := by decide
theorem test_integer_for_encode_ill_formed : (Literal.int 5).wellFormed .encode = false := by decide
theorem test_integer_too_large_ill_formed : (Literal.int 2147483648).wellFormed .decode = false := by decide
theorem test_integer_too_small_ill_formed : (Literal.int (-2147483649)).wellFormed .decode = false := by decide
theorem test_float_for_decode_ill_formed : (Literal.float false 5 (-1)).wellFormed .decode = false := by decide

/-! ## Words written out bit by bit from spec/30_encoding.md R41 and R42 -/

theorem test_decode_encwozS : decode ⟨0b0_0_0_001000#9, 7⟩ = .encwozS 8 7 := by decide
theorem test_decode_decwozS : decode ⟨0b0_0_1_001000#9, 7⟩ = .decwozS 8 7 := by decide
theorem test_decode_encwzS : decode ⟨0b0_1_0_001000#9, 7⟩ = .encwzS 8 7 := by decide
theorem test_decode_decwzS : decode ⟨0b0_1_1_000011#9, 7⟩ = .decwzS 3 7 := by decide
theorem test_decode_encwozD : decode ⟨0b1_0_0_010000#9, 7⟩ = .encwozD 16 7 := by decide
theorem test_decode_decwozD : decode ⟨0b1_0_1_000011#9, 7⟩ = .decwozD 3 7 := by decide
theorem test_decode_encwzD : decode ⟨0b1_1_0_100000#9, 7⟩ = .encwzD 32 7 := by decide
theorem test_decode_decwzD : decode ⟨0b1_1_1_111111#9, 7⟩ = .decwzD 63 7 := by decide
theorem test_table_word : decodeTableWord 16 0x088 = some (.encwzS 8 0) := by decide
theorem test_table_word_with_operand : decodeTableWord 80 (0x3F800000 * 512 + 0x088) = some (.encwzS 8 0x3F800000) := by decide
theorem test_table_word_beyond_the_ports : decodeTableWord 80 (2 ^ 73) = none := by decide
theorem test_fetch_word_runs : rspAfter (State.reset.withFetchWord 16 0x1C8) = some ⟨0, 0⟩ := by decide
theorem test_fetch_word_illegal_width : rspAfter (State.reset.withFetchWord 16 0x000) = some ⟨0, 1⟩ := by decide

/-! ## One step per command, expected answers from spec/95_test_vectors.md -/

/-- Section 2.1: the tie -63.5 rounds away from zero. -/
theorem test_encwozS_negative_tie : answerTo 0x008 0x00000000BF000000 = some ⟨0x00000000FFFFFFC0, 0⟩ := by decide
/-- Section 2.1: the exact product, where a binary32 product would give 314. -/
theorem test_encwozS_exact_product : answerTo 0x00C 0x000000003E1CD39A = some ⟨0x139, 0⟩ := by decide
/-- Section 2.7: -2.0 saturates, and bits 63:32 stay zero. -/
theorem test_encwzS_saturates : answerTo 0x088 0x00000000C0000000 = some ⟨0x00000000FFFFFF81, 0⟩ := by decide
/-- Program 1. -/
theorem test_encwzS_program_1 : answerTo 0x088 0x000000003E99999A = some ⟨38, 0⟩ := by decide
/-- Section 2.2: a negative signalling NaN gives 0 without an error. -/
theorem test_encwozD_nan : answerTo 0x108 0xFFF0000000000001 = some ⟨0, 0⟩ := by decide
/-- Section 2.5: the exact product, where a binary64 product would give 8388609. -/
theorem test_encwozD_exact_product : answerTo 0x120 0xBF70000010200000 = some ⟨0x00000000FF800000, 0⟩ := by decide
/-- spec/42 R86's example. -/
theorem test_encwzD_tenth : answerTo 0x1A0 0x3FB999999999999A = some ⟨0x0CCCCCCD, 0⟩ := by decide
/-- Section 2.6: the width is tested before the NaN operand. -/
theorem test_encwzD_width_first : answerTo 0x180 0x7FF8000000000000 = some ⟨0, 1⟩ := by decide
/-- Section 2.3: bits 63:32 of the operand are ignored. -/
theorem test_decwozS_ignores_high_bits : answerTo 0x048 0xFFFFFFFF00000040 = some ⟨0x3F010204, 0⟩ := by decide
/-- Section 2.3: `s - 64` at width 32 is the first code below 1.0. -/
theorem test_decwozS_below_one : answerTo 0x060 0x000000007FFFFFBF = some ⟨0x3F7FFFFF, 0⟩ := by decide
/-- Program 4: a field that was not sign-extended saturates. -/
theorem test_decwzS_unmasked : answerTo 0x0CA 0x267 = some ⟨0x3F800000, 0⟩ := by decide
/-- spec/42 R87's example. -/
theorem test_decwzS_third : answerTo 0x0C3 1 = some ⟨0x3EAAAAAB, 0⟩ := by decide
/-- Section 2.4. -/
theorem test_decwozD_minus_third : answerTo 0x143 0xFFFFFFFF = some ⟨0xBFD5555555555555, 0⟩ := by decide
/-- Section 2.4. -/
theorem test_decwozD_smallest : answerTo 0x160 1 = some ⟨0x3E00000000200000, 0⟩ := by decide
/-- spec/42 R88's example. -/
theorem test_decwzD_example : answerTo 0x1D0 0x3039 = some ⟨0x3FD81CB0396072C1, 0⟩ := by decide
/-- Section 2.6: width 63. -/
theorem test_decwzD_illegal : answerTo 0x1FF 0x80000000 = some ⟨0, 1⟩ := by decide

/-! ## Edges, from the traces of spec/95_test_vectors.md section 2.10 -/

/-- T1, cycle 2: with `rsp_ready = 0` nothing happens. -/
theorem test_response_held : rspAfter (pendingWith ⟨0x7F, 0⟩ (idleCycle 0)) = some ⟨0x7F, 0⟩ := by decide
/-- T1, cycle 3: deliver. -/
theorem test_response_taken : edgeOf (pendingWith ⟨0x7F, 0⟩ (idleCycle 1)) = .deliver ⟨0x7F, 0⟩ := by decide
/-- T3, cycle 3: reset wins over `rsp_ready = 1`. -/
theorem test_reset_is_no_deliver :
    edgeOf (pendingWith ⟨0x7F, 0⟩ { resetCycle with rspReady := some 1 }) = .reset := by decide
/-- T4, cycle 1: reset wins over an offer. -/
theorem test_reset_is_no_accept :
    edgeOf { State.reset with inputs := [{ offerCycle ⟨0x008, 0x3F800000⟩ 0 with rst := some 1 }] } = .reset := by decide
/-- spec/93_implementation_defined.md U1: an offer withdrawn. -/
theorem test_withdrawn_offer_refused :
    edgeOf { rsp := some ⟨1, 0⟩, inputs := [idleCycle 1], offer := some ⟨0x008, 0⟩ } = .offerBroken := by decide
/-- spec/93_implementation_defined.md U2: an undefined pin. -/
theorem test_undefined_pin_refused :
    edgeOf (pendingWith ⟨1, 0⟩ { idleCycle 1 with reqOpnd := none }) = .undefinedInput := by decide

/-! ## The assembler -/

theorem test_assemble_line : assembleLine "DECWZ10.S -409 ; unpacked".toList = some ⟨0x0CA, 0xFFFFFE67⟩ := by decide +kernel
theorem test_expected_response :
    expectedResponse "ENCWOZ.S 1, 0.5 -> 0x0, 1 ; no width".toList = some ⟨0, 1⟩ := by decide +kernel
theorem test_assemble_subnormal :
    assembleLine "ENCWOZ.D 16, 5e-324".toList = some ⟨0x110, 1⟩ := by decide +kernel

/-! ## Witnesses: each statement's hypotheses are met together

A statement quantified over every state, command or operand alone has no hypothesis and needs none. -/

/-- `ResetLeavesRspEmpty`, `ResetEdgeEmptiesRsp`, `PendingResponseLostAtReset`: a pending response and a reset cycle. -/
theorem witness_reset_edge :
    ∃ q, (pendingWith ⟨0x7F, 0⟩ resetCycle).inputs = resetCycle :: [] ∧ resetCycle.sample = some q ∧ q.rst = 1#1 :=
  ⟨_, rfl, rfl, rfl⟩

/-- `AcceptedExactlyWhenValidAndReady`, `ClockEdgeOrderOfTests`, `ProgressAtEveryEdge` (first clause): an offer to an
empty block. -/
theorem witness_accepting_cycle :
    ∃ q, (offering ⟨0x008, 5⟩).inputs = offerCycle ⟨0x008, 5⟩ 0 :: [] ∧ (offerCycle ⟨0x008, 5⟩ 0).sample = some q ∧
      dutyKept (offering ⟨0x008, 5⟩) = true ∧ q.rst = 0#1 ∧ (offering ⟨0x008, 5⟩).rsp = none ∧ q.reqValid = 1#1 ∧
      edgeOf (offering ⟨0x008, 5⟩) = .accept ⟨0x008, 5⟩ :=
  ⟨_, rfl, rfl, by decide, rfl, rfl, rfl, by decide⟩

/-- `TakenExactlyWhenValidAndReady`, `ProgressAtEveryEdge` (second clause), `DeliverEmptiesRsp`: a response and a ready
requester. -/
theorem witness_delivering_cycle :
    ∃ q, (pendingWith ⟨9, 0⟩ (idleCycle 1)).inputs = idleCycle 1 :: [] ∧ (idleCycle 1).sample = some q ∧
      dutyKept (pendingWith ⟨9, 0⟩ (idleCycle 1)) = true ∧ q.rst = 0#1 ∧ q.rspReady = 1#1 ∧
      (pendingWith ⟨9, 0⟩ (idleCycle 1)).rsp = some ⟨9, 0⟩ ∧
      edgeOf (pendingWith ⟨9, 0⟩ (idleCycle 1)) = .deliver ⟨9, 0⟩ :=
  ⟨_, rfl, rfl, by decide, rfl, rfl, rfl, by decide⟩

/-- `TakenExactlyWhenValidAndReady` (last clause), `BusyBlockAcceptsNothing`: a response and a requester that waits, and the
clause for an empty `RSP`. -/
theorem witness_holding_cycle :
    ∃ q, (idleCycle 0).sample = some q ∧ dutyKept (pendingWith ⟨9, 0⟩ (idleCycle 0)) = true ∧ q.rst = 0#1 ∧
      q.rspReady = 0#1 ∧ (pendingWith ⟨9, 0⟩ (idleCycle 0)).rsp = some ⟨9, 0⟩ ∧ (offering ⟨0x008, 5⟩).rsp = none :=
  ⟨_, rfl, by decide, rfl, rfl, rfl, rfl⟩

/-- `AcceptStoresExecute`: an accepting edge, also with an illegal width. -/
theorem witness_accept_edges :
    edgeOf (offering ⟨0x020, 5⟩) = .accept ⟨0x020, 5⟩ ∧ edgeOf (offering ⟨0x021, 5⟩) = .accept ⟨0x021, 5⟩ := by decide

/-- `StepRunsDecodedCommand`: both forms of the offer hypothesis. -/
theorem witness_step_runs :
    ∃ q, (offerCycle ⟨0x0C3, 1⟩ 1).sample = some q ∧ q.rst = 0#1 ∧ q.reqValid = 1#1 ∧
      (offering ⟨0x0C3, 1⟩).rsp = none ∧ (offering ⟨0x0C3, 1⟩).offer = none ∧
      edgeOf { rsp := none, inputs := [offerCycle ⟨0x0C3, 1⟩ 1], offer := some ⟨q.reqCmd, q.reqOpnd⟩ } =
        .accept ⟨q.reqCmd, q.reqOpnd⟩ ∧
      ∃ t, exec (decode ⟨q.reqCmd, q.reqOpnd⟩) (offering ⟨0x0C3, 1⟩) = .next t :=
  ⟨_, rfl, rfl, rfl, rfl, rfl, by decide, _, rfl⟩

/-- `RefusedExactlyOnBrokenDuty`: each refusal and a next state happen. -/
theorem witness_refusals :
    step (pendingWith ⟨1, 0⟩ { idleCycle 1 with rst := none }) = .refused .undefinedInput ∧
      step { rsp := some ⟨1, 0⟩, inputs := [offerCycle ⟨0x009, 0⟩ 1], offer := some ⟨0x008, 0⟩ } =
        .refused .offerBroken ∧
      step (pendingWith ⟨1, 0⟩ (idleCycle 1)) = .next State.reset :=
  ⟨rfl, rfl, rfl⟩

/-- `StandingOfferIsTheUnacceptedOne`: an offer to a busy block stands. -/
theorem witness_standing_offer :
    step (pendingWith ⟨1, 0⟩ (offerCycle ⟨0x008, 7⟩ 0)) =
      .next { rsp := some ⟨1, 0⟩, inputs := [], offer := some ⟨0x008, 7⟩ } := rfl

/-- `CommandAnsweredAfterWaiting`: an offer, two waiting cycles and a taking one. -/
theorem witness_waiting :
    let s : State :=
      { rsp := none, inputs := offerCycle ⟨0x008, 7⟩ 0 :: (List.replicate 2 (idleCycle 0#1) ++ [idleCycle 1#1]),
        offer := some ⟨0x008, 7⟩ }
    s.rsp = none ∧ s.offer = some ⟨0x008, 7⟩ ∧
      runCycles 4 s = some { rsp := none, inputs := [], offer := none } :=
  ⟨rfl, rfl, by decide⟩

/-- `OneCommandPerTwoCycles`: trace T2 of spec/95_test_vectors.md, the second command on the port while the first response
is taken, and the same from a state with the first offer standing. -/
theorem witness_back_to_back :
    let cs : List (Command × Bool) := [(⟨0x008, 0x3F000000⟩, true), (⟨0x048, 0x40⟩, false)]
    backToBack cs = [offerCycle ⟨0x008, 0x3F000000⟩ 1, offerCycle ⟨0x048, 0x40⟩ 1, offerCycle ⟨0x048, 0x40⟩ 1, idleCycle 1] ∧
      takenResponses (edgesOf 4 { rsp := none, inputs := backToBack cs, offer := cs.head?.map Prod.fst }) =
        [⟨0x40, 0⟩, ⟨0x3F010204, 0⟩] := by decide

/-- `ResponsesAnswerCommandsInOrder`, `QuiescentMeansAllAnswered`, `ClockedRunsAreClockFreeRuns`: a run without a reset
from an empty block that ends with a response owed. -/
theorem witness_run_without_reset :
    let s : State :=
      { rsp := none, inputs := backToBack [(⟨0x008, 0x3F800000⟩, false)] ++ [offerCycle ⟨0x048, 0x40⟩ 0], offer := none }
    s.rsp = none ∧ runCycles 3 s = some { rsp := some ⟨0x3F010204, 0⟩, inputs := [], offer := none } ∧
      Edge.reset ∉ edgesOf 3 s := by decide

/-- `QuiescentMeansAllAnswered`, `OverRunStaysOver`: a run that is over with an idle cycle still to come, and two that end
quiescent and are not over, with an offer standing and with an offer to come (spec/70_reset_and_hazards.md R118). -/
theorem witness_run_over :
    let finished : State := { rsp := none, inputs := [offerCycle ⟨0x008, 0⟩ 0, idleCycle 1, idleCycle 0], offer := none }
    let offered : State := { rsp := none, inputs := [offerCycle ⟨0x008, 0⟩ 0, offerCycle ⟨0x048, 1⟩ 1], offer := none }
    (Edge.reset ∉ edgesOf 2 finished ∧ (runCycles 2 finished).map runOver = some true ∧
        ∃ t, runCycles 1 { rsp := none, inputs := [idleCycle 0], offer := none } = some t) ∧
      (Edge.reset ∉ edgesOf 2 offered ∧ (runCycles 2 offered).map State.quiescent = some true ∧
        (runCycles 2 offered).map runOver = some false) ∧
      (offering ⟨0x008, 5⟩).quiescent = true ∧ runOver (offering ⟨0x008, 5⟩) = false :=
  ⟨⟨by decide, by decide, _, rfl⟩, by decide, rfl, rfl⟩

/-- `ResetsOnlyDropResponses`: a run in which a reset drops a response. -/
theorem witness_run_with_reset :
    let s : State := { rsp := none, inputs := [offerCycle ⟨0x008, 0x3F800000⟩ 0, resetCycle], offer := none }
    runCycles 2 s = some State.reset ∧ Edge.reset ∈ edgesOf 2 s := by decide

/-- `ClockFreeRunsAreClockedRuns`: an accept, a deliver, an accept and a reset. -/
theorem witness_clock_free_run :
    fireAll [.accept ⟨0x008, 0x3F800000⟩, .deliver, .accept ⟨0x001, 0⟩, .reset] none = some (none, [⟨0x7F, 0⟩]) := by decide

/-- `StepKeepsPendingAnAnswer`: a state with a pending answer and a step from it. -/
theorem witness_pending_answer :
    PendingIsAnswer (pendingWith (execute ⟨0x008, 0x3F800000⟩) (idleCycle 0)) ∧
      ∃ t, step (pendingWith (execute ⟨0x008, 0x3F800000⟩) (idleCycle 0)) = .next t :=
  ⟨fun _ h => ⟨⟨0x008, 0x3F800000⟩, Option.some.inj h⟩, _, rfl⟩

/-- `ResultDependsOnCommandAlone`, `SchemesAnswerAlike` and the four completion statements: an empty block that has other
state besides. -/
theorem witness_empty_block : (offering ⟨0x008, 7⟩).rsp = none ∧ idle.rsp = none := ⟨rfl, rfl⟩

/-- `DecodeFollowsOpcodeMap`: the map has its eight rows. -/
theorem witness_opcode_row : (⟨⟨.D, .B, .decode⟩, 0x1C0#9, 0x1C0#9⟩ : OpcodeRow) ∈ opcodeMap := by decide

/-- `InvalidBitWidthExactlyOnIllegalWidth`: both clauses at the ends of their ranges. -/
theorem witness_widths :
    idle.rsp = none ∧ (Instr.encwozS 0 0).bits.toNat = 0 ∧ (Instr.decwozS 1 0).bits.toNat = 1 ∧
      (33 ≤ (Instr.encwzD 33 0).bits.toNat ∧ (Instr.encwzD 33 0).bits.toNat ≤ 63) ∧ (Instr.decwzD 63 0).bits.toNat = 63 ∧
      (2 ≤ (Instr.encwozS 2 0).bits.toNat ∧ (Instr.encwozS 32 0).bits.toNat ≤ 32) := by decide

/-- `FailingCommandLeavesNothing`: the widths next to the legal ones. -/
theorem witness_failing_command :
    ¬ LegalBits (decode ⟨0x001, 0⟩).bits ∧ ¬ LegalBits (decode ⟨0x1E1, 0⟩).bits := by
  unfold LegalBits; decide

/-- `IgnoredOperandBits`: a binary32 encode, a binary64 decode and an illegal width, with operands that differ. -/
theorem witness_ignored_bits :
    (0x008#9).toNat / 256 % 2 = 0 ∧ (0x148#9).toNat / 64 % 2 = 1 ∧
      (0xDEADBEEF3F800000#64).extractLsb' 0 32 = (0x3F800000#64).extractLsb' 0 32 ∧
      (0x101#9).toNat % 64 < 2 ∧ 32 < (0x121#9).toNat % 64 := by decide

/-- The hypotheses that every numeric statement shares, for an encode and for a decode, at both end widths. -/
theorem witness_legal_width :
    (⟨.D, .B, .encode⟩ : Mnemonic).dir = .encode ∧ (⟨.S, .A, .decode⟩ : Mnemonic).dir = .decode ∧
      LegalBits 2 ∧ LegalBits 32 ∧ idle.rsp = none := by
  unfold LegalBits; decide

/-- `CodesFitTheirWidth` at both end widths: an answer exists. -/
theorem witness_codes :
    resultOf (Mnemonic.instr ⟨.S, .A, .encode⟩ 2 0xBF800000) idle = some ⟨0xFFFFFFFF, 0⟩ ∧
      resultOf (Mnemonic.instr ⟨.S, .A, .encode⟩ 32 0xBF800000) idle = some ⟨0x80000001, 0⟩ := by decide

/-- `EncodeSaturatesAtOne`: each clause, the finite ones at the values where they meet. -/
theorem witness_saturation :
    floatOperand .S 0x7F800000 = .inf false ∧ floatOperand .S 0xFF800000 = .inf true ∧
      busValue .S 0x3F800000 = some 1 ∧ busValue .S 0xBF800000 = some (-1) ∧
      codeOf 0x7F = rha (1 * (stepCount 8 : ℚ)) ∧ codeOf 0xFFFFFF81 = rha (-1 * (stepCount 8 : ℚ)) := by decide +kernel

/-- `NanEncodesToZero`: a NaN of each precision. -/
theorem witness_nan : floatOperand .S 0x7F800001 = .nan ∧ floatOperand .D 0xFFF8000000000000 = .nan := by decide

/-- `EncodeRoundsHalfAwayFromZero`, `RoundTripErrorBound`: a value in [-1, 1] whose product is a tie, and both ends. -/
theorem witness_value_in_range :
    busValue .D 0xBFE0000000000000 = some (-1 / 2) ∧ (-1 : ℚ) ≤ -1 / 2 ∧ (-1 / 2 : ℚ) ≤ 1 ∧
      |(codeOf 0xFFFFC000 : ℚ) - (-1 / 2) * (stepCount 16 : ℚ)| = 1 / 2 ∧
      busValue .D 0x3FF0000000000000 = some 1 := by decide +kernel

/-- `DecodeSaturatesAtStepCount`: each clause at its boundary, where the clauses agree. -/
theorem witness_code_ranges :
    (stepCount 8 : Int) ≤ codeOf 0x7F ∧ codeOf 0xFFFFFF81 ≤ -(stepCount 8 : Int) ∧
      -(stepCount 8 : Int) ≤ codeOf 0xFFFFFF81 ∧ codeOf 0x7F ≤ (stepCount 8 : Int) ∧
      decodePattern .S (codeOf 0x7F) (stepCount 8) = onePattern .S ∧
      decodePattern .S (codeOf 0xFFFFFF81) (stepCount 8) = minusOnePattern .S := by decide

/-- `DecodeIsNearestFloat`, `DecodeIsExactOnlyAtThreeCodes`: another float to compare with. -/
theorem witness_other_float :
    busValue .S 0x3F010204 = some (8454660 / 16777216) ∧ busValue .S 0x3F010205 = some (8454661 / 16777216) := by
  decide +kernel

/-- `EncodeIsMonotone`: a finite pair, and the infinities at the ends. -/
theorem witness_float_order :
    floatLe (floatOperand .S 0x3F000000) (floatOperand .S 0x3F800000) ∧
      floatLe (floatOperand .S 0xFF800000) (floatOperand .S 0x3F000000) ∧
      floatLe (floatOperand .S 0x3F000000) (floatOperand .S 0x7F800000) := by
  rw [show floatOperand .S 0x3F000000 = .finite false 8388608 (-24) by decide,
    show floatOperand .S 0x3F800000 = .finite false 8388608 (-23) by decide,
    show floatOperand .S 0xFF800000 = .inf true by decide, show floatOperand .S 0x7F800000 = .inf false by decide]
  refine ⟨?_, trivial, rfl⟩
  show finiteValue false 8388608 (-24) ≤ finiteValue false 8388608 (-23)
  decide +kernel

/-- `DecodeIsMonotone`: two codes in order. -/
theorem witness_code_order : codeOf 0xFFFFFFFF ≤ codeOf 1 := by decide

/-- `OddSymmetryOfBothDirections`: each clause. -/
theorem witness_symmetry :
    floatOperand .D 0x3FE0000000000000 ≠ .nan ∧ codeOf 5 ≠ -(2 : Int) ^ 31 ∧ codeOf 5 ≠ 0 ∧
      codeOf 0xFFFFFFFB = -codeOf 5 ∧ codeOf 0xFFFFFFFF00000000 = 0 := by decide

/-- `CodeRoundTrip`: binary64 at width 32 and binary32 at width 24, at both end codes. -/
theorem witness_round_trip :
    LegalBits 32 ∧ LegalBits 24 ∧ ((24 : WidthField).toNat ≤ 24) ∧ codeOf 0x007FFFFF = (stepCount 24 : Int) ∧
      codeOf 0xFF800001 = -(stepCount 24 : Int) ∧ codeOf 0x7FFFFFFF = (stepCount 32 : Int) := by
  unfold LegalBits; decide

/-- `Binary32DecodeReachesOneEarly`: each clause at its boundary. -/
theorem witness_early_one :
    27 ≤ (27 : WidthField).toNat ∧ (32 : WidthField).toNat ≤ 32 ∧ (stepCount 32 : Int) - 63 ≤ codeOf 0x7FFFFFC0 ∧
      codeOf 0x7FFFFFBF = (stepCount 32 : Int) - 64 := by decide

/-- `PseudoCommandsAreFixedWidthForms`: each clause at its boundary. -/
theorem witness_pseudo_commands :
    (Literal.float false 5 (-1)).wellFormed .encode = true ∧
      assemble (.fixedWidth ⟨.S, .A, .encode⟩ 32 (.hex [1])) = some ⟨0x020, 1⟩ ∧
      assemble (.fixedWidth ⟨.S, .A, .encode⟩ 2 (.hex [1])) = some ⟨0x002, 1⟩ ∧
      LegalBits (decode ⟨0x002, 1⟩).bits ∧ LegalBits (decode ⟨0x1E0, 1⟩).bits := by
  unfold LegalBits; decide

/-- `FloatLiteralIsNearest`: 0.1, and the largest finite binary32 number. -/
theorem witness_literal :
    0 < 10 ∧ nearestMagnitude .D 1 10 < expMax .D * 2 ^ fracWidth .D ∧
      nearestMagnitude .S 340282346638528859811704183484516925440 1 < expMax .S * 2 ^ fracWidth .S := by decide +kernel

end Sys2Proof.Tests
end

