-- ==== Sys2Proof/Proofs/StateAndPorts.lean ====
section
/-! PROOFS. The ports and the one storage element (spec/10_state.md R10, R20 to R23): each command leaves one response,
which is `Execute` of its word, and each edge is characterised by the pins and `RSP`. -/

namespace Sys2Proof.Machine

/-! ## What a command leaves in `RSP` -/

/-- The result of a command at width `e`, before the width is tested: its direction chooses the core, its precision the
float format (spec/40_common_numerics.md R61, R65). The scheme is not looked at. -/
def commandResult (i : Instr) (e : Nat) : Data :=
  match i.mnemonic.dir with
  | .encode => encodeCore i.mnemonic.prec i.opnd e
  | .decode => decodeCore i.mnemonic.prec i.opnd e

/-- The response of a command, from its fields alone. -/
def commandResponse (i : Instr) : Response := convertResponse i.bits (commandResult i)

theorem exec_eq_answer (i : Instr) (s : State) : exec i s = answer (commandResponse i) s := by
  cases i <;> exact convert_eq_answer _ _ s

theorem exec_of_empty {s : State} (h : s.rsp = none) (i : Instr) :
    exec i s = .next (s.setRsp (some (commandResponse i))) := by
  rw [exec_eq_answer, answer_of_empty h]

/-! ## The fields of a decoded word -/

theorem decode_bits (c : Command) : (decode c).bits = fieldBits c.cmd := by
  unfold decode
  split <;> rfl

theorem decode_opnd (c : Command) : (decode c).opnd = c.opnd := by
  unfold decode
  split <;> rfl

theorem decode_prec (c : Command) : (decode c).mnemonic.prec = if c.cmd.getLsbD 8 then .D else .S := by
  unfold decode
  split <;> simp_all [Instr.mnemonic]

theorem decode_dir (c : Command) : (decode c).mnemonic.dir = if c.cmd.getLsbD 6 then .decode else .encode := by
  unfold decode
  split <;> simp_all [Instr.mnemonic]

/-! ## `Execute` -/

/-- Running the decoded command gives `Execute` of its word (spec/10_state.md R22). -/
theorem commandResponse_decode (c : Command) : commandResponse (decode c) = execute c := by
  have hwidth : (widthOf (fieldBits c.cmd) < 2 ∨ 32 < widthOf (fieldBits c.cmd)) ↔
      ¬ legalWidth (widthOf (fieldBits c.cmd)) = true := by
    rw [legalWidth_iff]
    omega
  have hexec : execute c =
      if widthOf (fieldBits c.cmd) < 2 ∨ 32 < widthOf (fieldBits c.cmd) then ⟨0#64, errInvalidBitWidth⟩
      else ⟨commandResult (decode c) (widthOf (fieldBits c.cmd)), errNone⟩ := by
    unfold execute commandResult
    rw [decode_dir, decode_prec, decode_opnd]
    cases c.cmd.getLsbD 6 <;> rfl
  rw [hexec, if_congr hwidth rfl rfl, ite_not, commandResponse, convertResponse, decode_bits]

/-- `Execute` reads BITS, PREC, DIR and the operand, and nothing else of a command. -/
theorem execute_congr {c d : Command} (hbits : c.cmd.extractLsb' 0 6 = d.cmd.extractLsb' 0 6)
    (hprec : c.cmd.getLsbD 8 = d.cmd.getLsbD 8) (hdir : c.cmd.getLsbD 6 = d.cmd.getLsbD 6)
    (hopnd : c.opnd = d.opnd) : execute c = execute d := by
  unfold execute
  rw [hbits, hprec, hdir, hopnd]

/-- The scheme bit `cmd[7]` does not change the response (spec/10_state.md R22). -/
theorem execute_flip_scheme (c : Command) : execute ⟨c.cmd ^^^ 0x080#9, c.opnd⟩ = execute c := by
  apply execute_congr
  case hbits =>
    rw [BitVec.extractLsb'_xor, show (0x080#9).extractLsb' 0 6 = 0#6 from rfl, BitVec.xor_zero]
  case hprec => rw [BitVec.getLsbD_xor, show (0x080#9).getLsbD 8 = false from rfl, Bool.xor_false]
  case hdir => rw [BitVec.getLsbD_xor, show (0x080#9).getLsbD 6 = false from rfl, Bool.xor_false]
  case hopnd => rfl

/-- An accepting edge stores `Execute` of the command and begins a cycle in which no offer stands. -/
theorem step_of_accept_eq {s : State} {c : Command} (h : edgeOf s = .accept c) :
    step s = .next ((s.setRsp (some (execute c))).nextCycle none) := by
  rw [step_of_accept h, exec_of_empty (rsp_none_of_accept h), afterAccept_next, commandResponse_decode]

/-! ## The output ports -/

theorem reqReady_eq_one_iff (s : State) : s.outputs.reqReady = 1#1 ↔ s.rsp = none := by
  cases h : s.rsp with
  | none => simp [outputs_of_empty h]
  | some r => simp [outputs_of_pending h]

theorem rspValid_eq_one_iff (s : State) : s.outputs.rspValid = 1#1 ↔ ∃ r, s.rsp = some r := by
  cases h : s.rsp with
  | none => simp [outputs_of_empty h]
  | some r => simp [outputs_of_pending h]

/-! ## The edges, each by the pins and `RSP` -/

theorem bit_ne_one_iff (b : Bit) : b ≠ 1#1 ↔ b = 0#1 := by
  rcases BitVec.eq_zero_or_eq_one b with rfl | rfl <;> decide

theorem edge_eq_accept_iff (q : Sample) (rsp : Option Response) (standing : Option Command) (c : Command) :
    q.edge rsp standing = .accept c ↔
      q.rst = 0#1 ∧ q.keepsOffer standing = true ∧ rsp = none ∧ q.offered = some c := by
  rw [← bit_ne_one_iff]
  rcases edge_cases q rsp standing with
    ⟨hrst, e⟩ | ⟨_, hkeep, e⟩ | ⟨hrst, hkeep, ⟨hrsp, d, hoff, e⟩ | ⟨_, hoff, e⟩ | ⟨r, hrsp, _, e⟩ | ⟨r, hrsp, _, e⟩⟩
  · rw [e]; simp [hrst]
  · rw [e]; simp [hkeep]
  · rw [e]; simp [hrst, hkeep, hrsp, hoff]
  · rw [e]; simp [hoff]
  · rw [e]; simp [hrsp]
  · rw [e]; simp [hrsp]

theorem edge_eq_deliver_iff (q : Sample) (rsp : Option Response) (standing : Option Command) (r : Response) :
    q.edge rsp standing = .deliver r ↔
      q.rst = 0#1 ∧ q.keepsOffer standing = true ∧ rsp = some r ∧ q.rspReady = 1#1 := by
  rw [← bit_ne_one_iff]
  rcases edge_cases q rsp standing with
    ⟨hrst, e⟩ | ⟨_, hkeep, e⟩ | ⟨hrst, hkeep, ⟨hrsp, _, _, e⟩ | ⟨hrsp, _, e⟩ | ⟨d, hrsp, hy, e⟩ | ⟨d, _, hy, e⟩⟩
  · rw [e]; simp [hrst]
  · rw [e]; simp [hkeep]
  · rw [e]; simp [hrsp]
  · rw [e]; simp [hrsp]
  · rw [e]; simp [hrst, hkeep, hrsp, hy]
  · rw [e]; simp [hy]

/-- A pending response that is not taken is held, whatever the requester offers (spec/10_state.md R21). -/
theorem edge_of_pending_not_ready {q : Sample} {r : Response} {standing : Option Command}
    (hrst : q.rst = 0#1) (hkeep : q.keepsOffer standing = true) (hready : q.rspReady = 0#1) :
    q.edge (some r) standing = .hold := by
  simp [Sample.edge, hrst, hkeep, hready]

/-- The duty of spec/70_reset_and_hazards.md R114 (b) at an edge with `rst = 0`. -/
theorem keepsOffer_of_dutyKept {s : State} {p : InputPins} {rest : List InputPins} {q : Sample}
    (hi : s.inputs = p :: rest) (hq : p.sample = some q) (hd : dutyKept s = true) (hrst : q.rst = 0#1) :
    q.keepsOffer s.offer = true := by
  simpa [dutyKept, hi, hq, hrst] using hd

/-! ## The obligations -/

/-- Settles O23: a command answers `commandResponse`, in which no state appears. -/
theorem resultDependsOnCommandAlone : Obligations.ResultDependsOnCommandAlone :=
  fun i => ⟨commandResponse i, fun _ h => exec_of_empty h i⟩

/-- Settles O4: under the duties the standing offer is kept, so the accepting edge is known by the pins alone. -/
theorem acceptedExactlyWhenValidAndReady : Obligations.AcceptedExactlyWhenValidAndReady := by
  refine ⟨reqReady_eq_one_iff, fun s p rest q hi hq hd c => ?_⟩
  rw [edgeOf_of_sample hi hq, edge_eq_accept_iff, offered_eq_some_iff, reqReady_eq_one_iff]
  constructor
  · rintro ⟨hrst, _, hrsp, hvalid, hc⟩
    exact ⟨hrst, hvalid, hrsp, hc⟩
  · rintro ⟨hrst, hvalid, hrsp, hc⟩
    exact ⟨hrst, keepsOffer_of_dutyKept hi hq hd hrst, hrsp, hvalid, hc⟩

/-- Settles O5: the outputs by the two values of `RSP`, the delivering edge by the pins, and the held response by the
holding edge. -/
theorem takenExactlyWhenValidAndReady : Obligations.TakenExactlyWhenValidAndReady := by
  refine ⟨rspValid_eq_one_iff, fun s r h => ?_, fun s h => ?_, fun s p rest q hi hq hd => ⟨fun r => ?_, ?_⟩⟩
  · simp [outputs_of_pending h]
  · simp [outputs_of_empty h]
  · rw [edgeOf_of_sample hi hq, edge_eq_deliver_iff, rspValid_eq_one_iff]
    constructor
    · rintro ⟨hrst, _, hrsp, hready⟩
      exact ⟨hrst, ⟨r, hrsp⟩, hready, hrsp⟩
    · rintro ⟨hrst, _, hready, hrsp⟩
      exact ⟨hrst, keepsOffer_of_dutyKept hi hq hd hrst, hrsp, hready⟩
  · intro r hrsp hrst hready
    have hold : edgeOf s = .hold := by
      rw [edgeOf_of_sample hi hq, hrsp]
      exact edge_of_pending_not_ready hrst (keepsOffer_of_dutyKept hi hq hd hrst) hready
    exact ⟨_, step_of_hold hold, hrsp⟩

/-- Settles O6: the step of an accepting edge is known in full, and `Execute` does not read the scheme bit. -/
theorem acceptStoresExecute : Obligations.AcceptStoresExecute :=
  ⟨fun _ _ h => ⟨_, step_of_accept_eq h, rfl, rfl, outputs_of_pending rfl⟩, execute_flip_scheme⟩

/-- Settles O7: a delivering edge empties `RSP`, and the outputs show the empty register. -/
theorem deliverEmptiesRsp : Obligations.DeliverEmptiesRsp := by
  intro s r h
  have hempty : (s.emptyRsp.nextCycle (currentOffer s)).rsp = none := rfl
  refine ⟨_, step_of_deliver h, hempty, rfl, ?_⟩
  rw [outputs_of_empty hempty]
  exact ⟨rfl, rfl⟩

end Sys2Proof.Machine
end

