-- ==== Sys2Proof/Proofs/Encoding.lean ====
section
/-! PROOFS. Command words and the assembler (spec/30_encoding.md R40 to R42, R49, R50): the fields of a word as numbers,
the opcode as the mnemonic, and pseudo-commands as the commands of a legal width. -/

namespace Sys2Proof.Machine

/-! ## The fields of a word as numbers -/

/-- Bit `i` of a word is the digit of `2 ^ i` of its value. -/
theorem getLsbD_eq_true_iff (w : CmdWord) (i : Nat) : w.getLsbD i = true ↔ w.toNat / 2 ^ i % 2 = 1 := by
  rw [← BitVec.testBit_toNat, Nat.testBit_eq_decide_div_mod_eq, decide_eq_true_iff]

theorem fieldBits_toNat (w : CmdWord) : (fieldBits w).toNat = w.toNat % 64 :=
  BitVec.extractLsb'_toNat 0 6 w

theorem fieldOp_toNat (w : CmdWord) : (fieldOp w).toNat = w.toNat / 64 := by
  have hop : (fieldOp w).toNat = w.toNat / 64 % 8 := by
    rw [fieldOp, BitVec.extractLsb'_toNat, Nat.shiftRight_eq_div_pow]
  have hword : w.toNat < 512 := w.isLt
  omega

theorem decode_scheme (c : Command) : (decode c).mnemonic.scheme = if c.cmd.getLsbD 7 then .B else .A := by
  unfold decode
  split <;> simp_all [Instr.mnemonic]

theorem decode_prec_eq_D_iff (c : Command) : (decode c).mnemonic.prec = .D ↔ c.cmd.getLsbD 8 = true := by
  rw [decode_prec]
  cases c.cmd.getLsbD 8 <;> simp

theorem decode_scheme_eq_B_iff (c : Command) : (decode c).mnemonic.scheme = .B ↔ c.cmd.getLsbD 7 = true := by
  rw [decode_scheme]
  cases c.cmd.getLsbD 7 <;> simp

theorem decode_dir_eq_decode_iff (c : Command) : (decode c).mnemonic.dir = .decode ↔ c.cmd.getLsbD 6 = true := by
  rw [decode_dir]
  cases c.cmd.getLsbD 6 <;> simp

/-! ## A word is its opcode and its BITS field -/

theorem fieldOp_commandWord (op : BitVec 3) (bits : WidthField) : fieldOp (commandWord op bits) = op :=
  BitVec.extractLsb'_append_eq_left

theorem commandWord_fields (w : CmdWord) : commandWord (fieldOp w) (fieldBits w) = w :=
  BitVec.extractLsb'_append_extractLsb'

/-! ## The opcode is the mnemonic -/

/-- The mnemonic of an opcode, whose bits are PREC, SCHEME and DIR (spec/30_encoding.md R41). -/
def mnemonicOf (op : BitVec 3) : Mnemonic where
  prec := if op.getLsbD 2 then .D else .S
  scheme := if op.getLsbD 1 then .B else .A
  dir := if op.getLsbD 0 then .decode else .encode

theorem mnemonicOf_opcodeOf (m : Mnemonic) : mnemonicOf (opcodeOf m) = m := by
  obtain ⟨prec, scheme, dir⟩ := m
  cases prec <;> cases scheme <;> cases dir <;> rfl

theorem opcodeOf_mnemonicOf : ∀ op : BitVec 3, opcodeOf (mnemonicOf op) = op := by decide

/-- A command's mnemonic is read from the opcode of its word, and from nothing else. -/
theorem decode_mnemonic (c : Command) : (decode c).mnemonic = mnemonicOf (fieldOp c.cmd) := by
  have hbit (i : Nat) (hi : i < 3) : (fieldOp c.cmd).getLsbD i = c.cmd.getLsbD (6 + i) := by
    simp [fieldOp, hi]
  rw [mnemonicOf, hbit 2 (by omega), hbit 1 (by omega), hbit 0 (by omega), ← decode_prec, ← decode_scheme, ← decode_dir]

/-! ## Decode and encode of a command given by its fields -/

theorem instr_of_fields (i : Instr) : i.mnemonic.instr i.bits i.opnd = i := by
  cases i <;> rfl

/-- The command of a mnemonic is encoded as the mnemonic's opcode, then BITS (spec/30_encoding.md R42). -/
theorem encode_instr (m : Mnemonic) (bits : WidthField) (opnd : Data) :
    encode (m.instr bits opnd) = ⟨commandWord (opcodeOf m) bits, opnd⟩ := by
  obtain ⟨prec, scheme, dir⟩ := m
  cases prec <;> cases scheme <;> cases dir <;> rfl

theorem encode_decode (c : Command) : encode (decode c) = c := by
  rw [← instr_of_fields (decode c), encode_instr, decode_mnemonic, opcodeOf_mnemonicOf, decode_bits, commandWord_fields,
    decode_opnd]

/-! ## What a source line assembles to -/

theorem wellFormed_core_iff (m : Mnemonic) (n : Nat) (l : Literal) :
    (Source.core m n l).wellFormed = true ↔ n ≤ 63 ∧ l.wellFormed m.dir = true := by
  rw [Source.wellFormed, Bool.and_eq_true, decide_eq_true_iff, Config.bitsMax]

theorem wellFormed_fixedWidth_iff (m : Mnemonic) (n : Nat) (l : Literal) :
    (Source.fixedWidth m n l).wellFormed = true ↔ (2 ≤ n ∧ n ≤ 32) ∧ l.wellFormed m.dir = true := by
  rw [← legalWidth_iff, ← Bool.and_eq_true]
  rfl

theorem assemble_core_eq_some_iff (m : Mnemonic) (n : Nat) (l : Literal) (c : Command) :
    assemble (.core m n l) = some c ↔
      (n ≤ 63 ∧ l.wellFormed m.dir = true) ∧ encode (m.instr (BitVec.ofNat 6 n) (operandOf m l)) = c := by
  simp [assemble, wellFormed_core_iff, expand, assembleCore, encode_instr]

theorem assemble_fixedWidth_eq_some_iff (m : Mnemonic) (n : Nat) (l : Literal) (c : Command) :
    assemble (.fixedWidth m n l) = some c ↔
      ((2 ≤ n ∧ n ≤ 32) ∧ l.wellFormed m.dir = true) ∧ encode (m.instr (BitVec.ofNat 6 n) (operandOf m l)) = c := by
  simp [assemble, wellFormed_fixedWidth_iff, expand, assembleCore, encode_instr]

/-- The command word of a pseudo-command tells its mnemonic and its width. -/
theorem fields_of_assemble_fixedWidth {m : Mnemonic} {n : Nat} {l : Literal} {c : Command}
    (h : assemble (.fixedWidth m n l) = some c) :
    mnemonicOf (fieldOp c.cmd) = m ∧ (fieldBits c.cmd).toNat = n := by
  obtain ⟨⟨⟨_, hmax⟩, _⟩, rfl⟩ := (assemble_fixedWidth_eq_some_iff m n l c).1 h
  rw [encode_instr, fieldOp_commandWord, Laws.fieldBits_commandWord, BitVec.toNat_ofNat]
  exact ⟨mnemonicOf_opcodeOf m, Nat.mod_eq_of_lt (by omega)⟩

/-! ## An operand bus as a hexadecimal literal -/

/-- The sixteen hexadecimal digits of an operand bus, most significant digit first (spec/30_encoding.md R49). -/
def hexDigitsOf (d : Data) : List (BitVec 4) :=
  (List.range 16).map fun k => d.extractLsb' (60 - 4 * k) 4

theorem hexValue_append (ds : List (BitVec 4)) (d : BitVec 4) : hexValue (ds ++ [d]) = 16 * hexValue ds + d.toNat := by
  rw [hexValue, List.foldl_append]
  rfl

/-- The first `n` digits of an operand bus spell its upper `4 * n` bits. -/
theorem hexValue_leadingDigits (d : Data) (n : Nat) (hn : n ≤ 16) :
    hexValue ((List.range n).map fun k => d.extractLsb' (60 - 4 * k) 4) = d.toNat / 2 ^ (64 - 4 * n) := by
  induction n with
  | zero => exact (Nat.div_eq_of_lt d.isLt).symm
  | succ n ih =>
    have hprev : 64 - 4 * n = 60 - 4 * n + 4 := by omega
    have hnext : 64 - 4 * (n + 1) = 60 - 4 * n := by omega
    rw [List.range_succ, List.map_append, List.map_singleton, hexValue_append, ih (by omega), BitVec.extractLsb'_toNat,
      Nat.shiftRight_eq_div_pow, hprev, hnext, Nat.pow_add, ← Nat.div_div_eq_div_mul]
    exact Nat.div_add_mod _ 16

theorem hexValue_hexDigitsOf (d : Data) : hexValue (hexDigitsOf d) = d.toNat := by
  rw [hexDigitsOf, hexValue_leadingDigits d 16 le_rfl, Nat.sub_self, Nat.pow_zero, Nat.div_one]

theorem operandOf_hexDigitsOf (m : Mnemonic) (d : Data) : operandOf m (.hex (hexDigitsOf d)) = d := by
  rw [operandOf, hexValue_hexDigitsOf, BitVec.ofNat_toNat, BitVec.setWidth_eq]

theorem wellFormed_hexDigitsOf (dir : Direction) (d : Data) : (Literal.hex (hexDigitsOf d)).wellFormed dir = true := rfl

/-- A command of a legal width is the pseudo-command of its own mnemonic and width. -/
theorem assemble_fixedWidth_decode {c : Command} (h : LegalBits (decode c).bits) :
    assemble (.fixedWidth (decode c).mnemonic (decode c).bits.toNat (.hex (hexDigitsOf c.opnd))) = some c := by
  rw [assemble_fixedWidth_eq_some_iff]
  refine ⟨⟨h, wellFormed_hexDigitsOf _ _⟩, ?_⟩
  rw [operandOf_hexDigitsOf, BitVec.ofNat_toNat, BitVec.setWidth_eq, ← decode_opnd c, instr_of_fields, encode_decode]

/-- The line `ENCWOZ8.S 0.5` as it is read (spec/30_encoding.md R50). -/
theorem readLine_encwoz8 : readLine ['E', 'N', 'C', 'W', 'O', 'Z', '8', '.', 'S', ' ', '0', '.', '5'] =
    some ⟨.fixedWidth ⟨.S, .A, .encode⟩ 8 (.float false 5 (-1)), none⟩ := by decide

/-! ## The obligations -/

/-- Settles O26: each field is some bits of the word, and these bits are digits of the word's value. -/
theorem fieldsOfTheCommandWord : Obligations.FieldsOfTheCommandWord := by
  intro c
  have hbits : (decode c).bits.toNat = c.cmd.toNat % 64 := by rw [decode_bits, fieldBits_toNat]
  exact ⟨(decode_prec_eq_D_iff c).trans (getLsbD_eq_true_iff c.cmd 8),
    (decode_scheme_eq_B_iff c).trans (getLsbD_eq_true_iff c.cmd 7),
    (decode_dir_eq_decode_iff c).trans (getLsbD_eq_true_iff c.cmd 6),
    hbits, decode_opnd c, fieldOp_toNat c.cmd⟩

/-- Settles O54: a pseudo-command assembles at the legal widths only, and then to its core command, whose word tells the
mnemonic and the width; so a legal word comes from the mnemonic and the width it decodes to, and from no others. -/
theorem pseudoCommandsAreFixedWidthForms : Obligations.PseudoCommandsAreFixedWidthForms := by
  refine ⟨fun m n l hmin hmax hl => ?core, fun m n l hn => ?illegal, fun c hc => ?word, ?line⟩
  case core =>
    have hcore := (assemble_core_eq_some_iff m n l _).2 ⟨⟨by omega, hl⟩, rfl⟩
    have hfixed := (assemble_fixedWidth_eq_some_iff m n l _).2 ⟨⟨⟨hmin, hmax⟩, hl⟩, rfl⟩
    exact ⟨hfixed.trans hcore.symm, hcore⟩
  case illegal =>
    refine Option.eq_none_iff_forall_ne_some.2 fun c hc => ?_
    obtain ⟨⟨⟨hmin, hmax⟩, _⟩, _⟩ := (assemble_fixedWidth_eq_some_iff m n l c).1 hc
    omega
  case word =>
    refine ⟨(decode c).mnemonic, (decode c).bits.toNat, hc.1, hc.2, assemble_fixedWidth_decode hc, ?_⟩
    intro m' n' _ _ l c' hc' hword
    obtain ⟨hm, hn⟩ := fields_of_assemble_fixedWidth hc'
    rw [decode_mnemonic, decode_bits, ← hword]
    exact ⟨hm.symm, hn.symm⟩
  case line =>
    rw [assembleLine, readLine_encwoz8]
    decide

end Sys2Proof.Machine
end

