-- ==== Sys2Proof/Proofs/CommonNumerics.lean ====
section
/-! PROOFS. The numeric semantics of both schemes (spec/40_common_numerics.md R57 to R65): the code of an encode in its
rational form, and saturation in both directions. -/

namespace Sys2Proof.Machine

/-! ## What a command given by its fields leaves in `RSP` -/

@[simp] theorem instr_mnemonic (m : Mnemonic) (bits : WidthField) (opnd : Data) : (m.instr bits opnd).mnemonic = m := by
  obtain ⟨prec, scheme, dir⟩ := m
  cases prec <;> cases scheme <;> cases dir <;> rfl

@[simp] theorem instr_bits (m : Mnemonic) (bits : WidthField) (opnd : Data) : (m.instr bits opnd).bits = bits := by
  obtain ⟨prec, scheme, dir⟩ := m
  cases prec <;> cases scheme <;> cases dir <;> rfl

@[simp] theorem instr_opnd (m : Mnemonic) (bits : WidthField) (opnd : Data) : (m.instr bits opnd).opnd = opnd := by
  obtain ⟨prec, scheme, dir⟩ := m
  cases prec <;> cases scheme <;> cases dir <;> rfl

theorem resultOf_of_empty {s : State} (h : s.rsp = none) (i : Instr) : resultOf i s = some (commandResponse i) := by
  rw [resultOf, exec_of_empty h]
  rfl

/-- A command of a legal width answers its result without an error. -/
theorem commandResponse_of_legal {i : Instr} (h : LegalBits i.bits) :
    commandResponse i = ⟨commandResult i i.bits.toNat, 0#1⟩ :=
  if_pos ((legalWidth_iff _).2 h)

/-- The answer of an encode of a legal width (spec/40_common_numerics.md R61). -/
theorem resultOf_encode {m : Mnemonic} {bits : WidthField} {s : State} (hdir : m.dir = .encode)
    (hbits : LegalBits bits) (hs : s.rsp = none) (opnd : Data) :
    resultOf (m.instr bits opnd) s = some ⟨encodeCore m.prec opnd bits.toNat, 0#1⟩ := by
  rw [resultOf_of_empty hs, commandResponse_of_legal (by rwa [instr_bits])]
  simp [commandResult, hdir]

/-- The answer of a decode of a legal width (spec/40_common_numerics.md R65). -/
theorem resultOf_decode {m : Mnemonic} {bits : WidthField} {s : State} (hdir : m.dir = .decode)
    (hbits : LegalBits bits) (hs : s.rsp = none) (opnd : Data) :
    resultOf (m.instr bits opnd) s = some ⟨decodeCore m.prec opnd bits.toNat, 0#1⟩ := by
  rw [resultOf_of_empty hs, commandResponse_of_legal (by rwa [instr_bits])]
  simp [commandResult, hdir]

/-! ## The code word on the bus -/

/-- A code of 32 bits is read back from the result bus (spec/30_encoding.md R45). -/
theorem codeOf_zext64_twos32 {i : Int} (hmin : -2 ^ 31 ≤ i) (hmax : i < 2 ^ 31) : codeOf (zext64 (twos32 i)) = i := by
  rw [codeOf, zext64, BitVec.extractLsb'_setWidth_of_le (by decide), BitVec.extractLsb'_eq_self, twos32,
    BitVec.toInt_ofInt_eq_self (by decide) hmin hmax]

/-- The result of an encode is its code, with no wrap-around (spec/40_common_numerics.md R62). -/
theorem codeOf_encodeCore {e : Nat} (he : e ≤ 32) (P : Precision) (opnd : Data) :
    codeOf (encodeCore P opnd e) = encodeCode (floatOperand P opnd) e := by
  have hs := stepCount_le he
  obtain ⟨hmin, hmax⟩ := encodeCode_mem (floatOperand P opnd) e
  exact codeOf_zext64_twos32 (by omega) (by omega)

/-! ## The rational forms -/

/-- `rha` is odd (spec/40_common_numerics.md R58). -/
theorem rha_neg (p : ℚ) : rha (-p) = -rha p := by
  unfold rha
  rcases lt_trichotomy p 0 with h | rfl | h
  · rw [if_pos (by linarith), if_neg (by linarith), neg_neg]
  · norm_num
  · rw [if_neg (by linarith), if_pos (by linarith), neg_neg]

theorem rha_of_nonneg {p : ℚ} (h : 0 ≤ p) : rha p = ⌊p + 1 / 2⌋ := if_pos h

theorem rha_natCast (n : Nat) : rha (n : ℚ) = n := by
  rw [rha_of_nonneg n.cast_nonneg, Int.floor_natCast_add]
  norm_num

theorem clampUnit_of_one_le {v : ℚ} (h : 1 ≤ v) : clampUnit v = 1 := by
  rw [clampUnit, max_eq_left (by linarith), min_eq_right h]

theorem clampUnit_of_le_neg_one {v : ℚ} (h : v ≤ -1) : clampUnit v = -1 := by
  rw [clampUnit, max_eq_right h, min_eq_left (by norm_num)]

theorem clampUnit_of_mem {v : ℚ} (h1 : -1 ≤ v) (h2 : v ≤ 1) : clampUnit v = v := by
  rw [clampUnit, max_eq_left h1, min_eq_left h2]

theorem clampUnit_neg (v : ℚ) : clampUnit (-v) = -clampUnit v := by
  rcases le_total v (-1) with hlow | hlow
  · rw [clampUnit_of_le_neg_one hlow, clampUnit_of_one_le (by linarith), neg_neg]
  · rcases le_total 1 v with hhigh | hhigh
    · rw [clampUnit_of_one_le hhigh, clampUnit_of_le_neg_one (by linarith)]
    · rw [clampUnit_of_mem hlow hhigh, clampUnit_of_mem (by linarith) (by linarith)]

theorem finiteValue_true (m : Nat) (x : Int) : finiteValue true m x = -finiteValue false m x := by
  simp [finiteValue]

theorem finiteValue_false (m : Nat) (x : Int) : finiteValue false m x = (m : ℚ) * 2 ^ x := by
  simp [finiteValue]

theorem finiteValue_false_of_neg (m : Nat) {x : Int} (hx : x < 0) :
    finiteValue false m x = (m : ℚ) / ((2 ^ (-x).toNat : Nat) : ℚ) := by
  rw [finiteValue_false, div_eq_mul_inv, Nat.cast_pow, Nat.cast_ofNat, ← zpow_natCast, ← zpow_neg,
    Int.toNat_of_nonneg (by omega), neg_neg]

/-- The test of the integer form that a magnitude saturates (spec/40_common_numerics.md R61). -/
theorem one_le_finiteValue_false_iff {m : Nat} (hm : m ≠ 0) (x : Int) :
    1 ≤ finiteValue false m x ↔ 0 ≤ x ∨ 2 ^ (-x).toNat ≤ m := by
  by_cases hx : 0 ≤ x
  · have hm1 : (1 : ℚ) ≤ m := by exact_mod_cast Nat.one_le_iff_ne_zero.2 hm
    have hx1 : (1 : ℚ) ≤ 2 ^ x := one_le_zpow₀ (by norm_num) hx
    rw [finiteValue_false]
    exact iff_of_true (one_le_mul_of_one_le_of_one_le hm1 hx1) (.inl hx)
  · rw [finiteValue_false_of_neg m (by omega), one_le_div (by positivity), Nat.cast_le]
    exact (or_iff_right hx).symm

/-- Adding half and shifting right by `k` rounds `n / 2^k`, half up (spec/40_common_numerics.md R61). -/
theorem floor_div_two_pow_add_half (n : Nat) {k : Nat} (hk : 0 < k) :
    ⌊(n : ℚ) / ((2 ^ k : Nat) : ℚ) + 1 / 2⌋ = (((n + 2 ^ (k - 1)) / 2 ^ k : Nat) : Int) := by
  obtain ⟨k, rfl⟩ := Nat.exists_eq_add_one_of_ne_zero hk.ne'
  have hsum : (n : ℚ) / ((2 ^ (k + 1) : Nat) : ℚ) + 1 / 2 = ((n + 2 ^ k : Nat) : ℚ) / ((2 ^ (k + 1) : Nat) : ℚ) := by
    push_cast
    field_simp
    ring
  rw [hsum, Rat.floor_natCast_div_natCast]
  rfl

@[simp] theorem encodeMagnitude_zero (x : Int) (s : Nat) : encodeMagnitude 0 x s = 0 := if_pos rfl

theorem encodeMagnitude_of_saturates {m : Nat} {x : Int} (hm : m ≠ 0) (h : 0 ≤ x ∨ 2 ^ (-x).toNat ≤ m) (s : Nat) :
    encodeMagnitude m x s = s :=
  (if_neg hm).trans (if_pos h)

theorem encodeMagnitude_of_not_saturates {m : Nat} {x : Int} (hm : m ≠ 0) (h : ¬ (0 ≤ x ∨ 2 ^ (-x).toNat ≤ m))
    (s : Nat) : encodeMagnitude m x s = (m * s + 2 ^ ((-x).toNat - 1)) / 2 ^ (-x).toNat :=
  (if_neg hm).trans (if_neg h)

/-- The integer form of the magnitude is the rational one (spec/40_common_numerics.md R61). -/
theorem encodeMagnitude_eq_rha (m : Nat) (x : Int) (s : Nat) :
    (encodeMagnitude m x s : Int) = rha (clampUnit (finiteValue false m x) * s) := by
  have hnonneg : 0 ≤ finiteValue false m x := by rw [finiteValue_false]; positivity
  rcases eq_or_ne m 0 with rfl | hm
  · have hzero : finiteValue false 0 x = 0 := by simp [finiteValue]
    rw [encodeMagnitude_zero, hzero, clampUnit_of_mem (by norm_num) (by norm_num), zero_mul]
    exact (rha_natCast 0).symm
  · by_cases hsat : 0 ≤ x ∨ 2 ^ (-x).toNat ≤ m
    · have hone := (one_le_finiteValue_false_iff hm x).2 hsat
      rw [encodeMagnitude_of_saturates hm hsat, clampUnit_of_one_le hone, one_mul, rha_natCast]
    · have hlt : ¬ 1 ≤ finiteValue false m x := mt (one_le_finiteValue_false_iff hm x).1 hsat
      have hx : x < 0 := by omega
      rw [encodeMagnitude_of_not_saturates hm hsat, clampUnit_of_mem (by linarith) (by linarith),
        rha_of_nonneg (by positivity), finiteValue_false_of_neg m hx, div_mul_eq_mul_div, ← Nat.cast_mul,
        floor_div_two_pow_add_half _ (by omega)]

/-- The two forms of `EncodeCore` agree (spec/40_common_numerics.md R61). -/
theorem encodeCode_eq_exactCode (f : FloatVal) (e : Nat) : encodeCode f e = exactCode f e := by
  cases f with
  | nan => rfl
  | inf negative => rfl
  | finite negative m x =>
    cases negative with
    | false => exact encodeMagnitude_eq_rha m x _
    | true =>
      calc -(encodeMagnitude m x (stepCount e) : Int)
          = -rha (clampUnit (finiteValue false m x) * stepCount e) := by rw [encodeMagnitude_eq_rha]
        _ = rha (clampUnit (finiteValue true m x) * stepCount e) := by
          rw [finiteValue_true, clampUnit_neg, neg_mul, rha_neg]

/-- The code of a float that is a number is its clamped value times `s`, rounded (spec/40_common_numerics.md
R57 to R59). -/
theorem encodeCode_of_exactValue {f : FloatVal} {v : ℚ} (h : exactValue f = some v) (e : Nat) :
    encodeCode f e = rha (clampUnit v * stepCount e) := by
  rw [encodeCode_eq_exactCode]
  cases f with
  | nan => cases h
  | inf negative => cases h
  | finite negative m x =>
    cases h
    rfl

theorem encodeCode_of_one_le {f : FloatVal} {v : ℚ} (h : exactValue f = some v) (hv : 1 ≤ v) (e : Nat) :
    encodeCode f e = stepCount e := by
  rw [encodeCode_of_exactValue h, clampUnit_of_one_le hv, one_mul, rha_natCast]

theorem encodeCode_of_le_neg_one {f : FloatVal} {v : ℚ} (h : exactValue f = some v) (hv : v ≤ -1) (e : Nat) :
    encodeCode f e = -stepCount e := by
  rw [encodeCode_of_exactValue h, clampUnit_of_le_neg_one hv, neg_one_mul, rha_neg, rha_natCast]

theorem encodeCode_of_mem {f : FloatVal} {v : ℚ} (h : exactValue f = some v) (h1 : -1 ≤ v) (h2 : v ≤ 1) (e : Nat) :
    encodeCode f e = rha (v * stepCount e) := by
  rw [encodeCode_of_exactValue h, clampUnit_of_mem h1 h2]

/-! ## Decode at the ends of the range -/

theorem clampCode_of_le {c : Int} {s : Nat} (h : (s : Int) ≤ c) : clampCode c s = s := by
  unfold clampCode; omega

theorem clampCode_of_le_neg {c : Int} {s : Nat} (h : c ≤ -(s : Int)) : clampCode c s = -s := by
  unfold clampCode; omega

theorem normalShift_of_le {n s : Nat} (h : s ≤ n) (fuel : Nat) : normalShift n s fuel = 0 := by
  cases fuel with
  | zero => rfl
  | succ fuel => exact if_pos h

theorem roundQuotient_zero {s : Nat} (hs : 0 < s) (M : Nat) : roundQuotient M 0 s = M :=
  if_neg (by omega)

/-- The quotient `s / s` is 1.0: exponent 0 and fraction 0 (spec/40_common_numerics.md R64). -/
theorem rneFields_self (P : Precision) {s : Nat} (hs : 0 < s) : rneFields P s s = (bias P, 0) := by
  have hne : 2 ^ fracWidth P ≠ 2 ^ (fracWidth P + 1) := (Nat.pow_lt_pow_succ (by decide)).ne
  simp [rneFields, normalShift_of_le, Nat.mul_div_cancel_left _ hs, roundQuotient_zero hs, hne]

theorem decodePattern_stepCount (P : Precision) {s : Nat} (hs : 0 < s) : decodePattern P s s = onePattern P := by
  rw [decodePattern, if_neg (by omega), Int.natAbs_natCast, rneFields_self P hs, decide_eq_false (by omega)]
  cases P <;> rfl

theorem decodePattern_neg_stepCount (P : Precision) {s : Nat} (hs : 0 < s) :
    decodePattern P (-s) s = minusOnePattern P := by
  rw [decodePattern, if_neg (by omega), Int.natAbs_neg, Int.natAbs_natCast, rneFields_self P hs,
    decide_eq_true (by omega)]
  cases P <;> rfl

/-! ## The obligations -/

/-- Settles O38: the answered code is that of the operand, whose rational form saturates at `s` and `-s`. -/
theorem encodeSaturatesAtOne : Obligations.EncodeSaturatesAtOne := by
  intro m bits opnd s hdir hbits hs
  refine ⟨_, resultOf_encode hdir hbits hs opnd, ?_⟩
  rw [codeOf_encodeCore hbits.2]
  refine ⟨fun h => ?posInf, fun h => ?negInf, encodeCode_mem _ _, fun v hv => ?finite⟩
  case posInf => rw [h]; rfl
  case negInf => rw [h]; rfl
  case finite =>
    exact ⟨fun h => encodeCode_of_one_le hv h _, fun h => encodeCode_of_le_neg_one hv h _,
      fun h1 h2 => encodeCode_of_mem hv h1 h2 _⟩

/-- Settles O39: a NaN has code 0, whose word is all zeros. -/
theorem nanEncodesToZero : Obligations.NanEncodesToZero := by
  intro m bits opnd s hdir hbits hs hnan
  rw [resultOf_encode hdir hbits hs, encodeCore, hnan]
  rfl

/-- Settles O41: the code is clamped to `[-s, s]`, and the quotients `s / s` and `-s / s` are 1.0 and -1.0. -/
theorem decodeSaturatesAtStepCount : Obligations.DecodeSaturatesAtStepCount := by
  intro m bits opnd s hdir hbits hs
  have hpos : 0 < stepCount bits.toNat := stepCount_pos hbits.1
  have hresult : resultOf (m.instr bits opnd) s =
      some ⟨decodePattern m.prec (clampCode (codeOf opnd) (stepCount bits.toNat)) (stepCount bits.toNat), 0#1⟩ :=
    resultOf_decode hdir hbits hs opnd
  rw [hresult]
  refine ⟨fun h => ?atOrAbove, fun h => ?atOrBelow, fun h1 h2 => ?inside⟩
  case atOrAbove => rw [clampCode_of_le h, decodePattern_stepCount _ hpos]
  case atOrBelow => rw [clampCode_of_le_neg h, decodePattern_neg_stepCount _ hpos]
  case inside => rw [clampCode_of_mem h1 h2]

end Sys2Proof.Machine
end

