-- ==== Sys2Proof/Proofs/SchemeAWithoutZero.lean ====
section
/-! PROOFS. The conversions as the commands complete them (spec/41_scheme_a_without_zero.md R75 to R78 and the same
commands of spec/42_scheme_b_with_zero.md): the integer form of `rneP` that the step runs is the rational one, and each
command leaves the rational result of its width. -/

namespace Sys2Proof.Machine

/-! ## The exponent of a quotient -/

/-- One doubling less would leave `n` below `s`, so the normalised `n` is below `2 * s`. -/
theorem normalShift_lt_double {n s fuel : Nat} (hn : 0 < n) (hns : n ≤ s) (hfuel : s ≤ n * 2 ^ fuel) :
    n * 2 ^ normalShift n s fuel < 2 * s := by
  obtain ⟨_, _, hleast⟩ := normalShift_spec fuel n s hfuel
  cases hj : normalShift n s fuel with
  | zero => omega
  | succ j =>
    have hlt : n * 2 ^ j < s := hleast j (by omega)
    calc n * 2 ^ (j + 1) = 2 * (n * 2 ^ j) := by ring
      _ < 2 * s := by omega

/-- `⌊log2 (n / s)⌋ = -j` where `j` doublings bring `n` into `[s, 2 * s)` (spec/40_common_numerics.md R64). -/
theorem log_div_eq_neg {n s j : Nat} (hn : 0 < n) (hs : 0 < s) (hlow : s ≤ n * 2 ^ j) (hhigh : n * 2 ^ j < 2 * s) :
    Int.log 2 ((n : ℚ) / s) = -(j : Int) := by
  have hq : (0 : ℚ) < (n : ℚ) / s := by positivity
  have hlow' : ((2 : Nat) : ℚ) ^ (-(j : Int)) ≤ (n : ℚ) / s := by
    rw [Nat.cast_ofNat, zpow_neg, zpow_natCast, inv_eq_one_div, div_le_div_iff₀ (by positivity) (by positivity), one_mul]
    exact_mod_cast hlow
  have hhigh' : (n : ℚ) / s < ((2 : Nat) : ℚ) ^ (-(j : Int) + 1) := by
    rw [Nat.cast_ofNat, zpow_add₀ two_ne_zero, zpow_one, zpow_neg, zpow_natCast, inv_mul_eq_div,
      div_lt_div_iff₀ (by positivity) (by positivity)]
    exact_mod_cast hhigh
  have hle := (Int.zpow_le_iff_le_log one_lt_two hq).1 hlow'
  have hlt := (Int.lt_zpow_iff_log_lt one_lt_two hq).1 hhigh'
  omega

/-! ## The rounded significand -/

/-- Round to the nearest integer, ties to even: the `M` of `rneP` (spec/40_common_numerics.md R64). -/
def roundHalfEven (t : ℚ) : Int :=
  if 1 / 2 < Int.fract t ∨ (Int.fract t = 1 / 2 ∧ ⌊t⌋ % 2 = 1) then ⌊t⌋ + 1 else ⌊t⌋

/-- `rneP` by its exponent `E` and its rounded significand `M` (spec/40_common_numerics.md R64). -/
theorem rneExact_of_significand {P : Precision} {q : ℚ} {E M : Int} (hE : Int.log 2 q = E)
    (hM : roundHalfEven (q * 2 ^ ((fracWidth P : Int) - E)) = M) :
    rneExact P q =
      if M = 2 ^ (fracWidth P + 1) then (E + 1 + bias P, 0) else (E + bias P, M - 2 ^ fracWidth P) := by
  subst hE hM
  rfl

/-- The integer form of the rounding looks at the doubled remainder (spec/40_common_numerics.md R64). -/
theorem roundHalfEven_div (N : Nat) {s : Nat} (hs : 0 < s) :
    roundHalfEven ((N : ℚ) / s) = roundQuotient (N / s) (N % s) s := by
  have hsq : (0 : ℚ) < s := by exact_mod_cast hs
  have habove : (1 : ℚ) / 2 < ((N % s : Nat) : ℚ) / s ↔ s < 2 * (N % s) := by
    rw [div_lt_div_iff₀ two_pos hsq, one_mul, mul_comm]
    exact_mod_cast Iff.rfl
  have htie : ((N % s : Nat) : ℚ) / s = 1 / 2 ↔ 2 * (N % s) = s := by
    rw [div_eq_div_iff hsq.ne' two_ne_zero, one_mul, mul_comm]
    exact_mod_cast Iff.rfl
  have hodd : ((N / s : Nat) : Int) % 2 = 1 ↔ N / s % 2 = 1 := by omega
  rw [roundHalfEven, Int.fract_div_natCast_eq_div_natCast_mod, Rat.floor_natCast_div_natCast, ← Int.natCast_ediv,
    roundQuotient]
  simp only [habove, htie, hodd]
  split <;> rfl

/-! ## The two forms of `DecodeCore` -/

/-- The two forms of `rneP` agree on `n / s` (spec/40_common_numerics.md R64). -/
theorem rneFields_eq_rneExact (P : Precision) {n s : Nat} (hn : 0 < n) (hns : n ≤ s) (hfuel : s ≤ n * 2 ^ 31) :
    rneFields P n s =
      ((rneExact P ((n : ℚ) / s)).1.toNat, (rneExact P ((n : ℚ) / s)).2.toNat) := by
  have hs : 0 < s := by omega
  obtain ⟨hlow, hj, _⟩ := normalShift_spec 31 n s hfuel
  have hlog := log_div_eq_neg hn hs hlow (normalShift_lt_double hn hns hfuel)
  rw [rneFields]
  generalize normalShift n s 31 = j at hj hlog ⊢
  have hscale : (n : ℚ) / s * 2 ^ ((fracWidth P : Int) - -(j : Int)) = ((n * 2 ^ (fracWidth P + j) : Nat) : ℚ) / s := by
    rw [sub_neg_eq_add, ← Nat.cast_add, zpow_natCast]
    push_cast
    ring
  rw [rneExact_of_significand hlog (by rw [hscale, roundHalfEven_div _ hs])]
  generalize roundQuotient _ _ s = M
  have hbias : 31 ≤ bias P := by cases P <;> decide
  have hcarry : (M : Int) = 2 ^ (fracWidth P + 1) ↔ M = 2 ^ (fracWidth P + 1) := by exact_mod_cast Iff.rfl
  have hfrac : (M - 2 ^ fracWidth P : Int).toNat = M - 2 ^ fracWidth P := by
    rw [← Int.toNat_sub]
    push_cast
    rfl
  simp only [hcarry]
  split
  · exact Prod.ext (by simp only; omega) rfl
  · exact Prod.ext (by simp only; omega) hfrac.symm

/-- The two forms of `DecodeCore` agree at every width up to 32, where at most 31 doublings bring a code to `s`
(spec/40_common_numerics.md R65). -/
theorem decodeCore_eq_exactDecode {e : Nat} (he : e ≤ 32) (P : Precision) (opnd : Data) :
    decodeCore P opnd e = exactDecode P opnd e := by
  have hs := stepCount_le he
  have hlow := le_clampCode (codeOperand opnd) (stepCount e)
  have hhigh := clampCode_le (codeOperand opnd) (stepCount e)
  simp only [decodeCore, decodePattern, exactDecode]
  generalize clampCode (codeOperand opnd) (stepCount e) = cc at hlow hhigh ⊢
  split
  · rfl
  · next hcc =>
    rw [rneFields_eq_rneExact P (by omega) (by omega) (by omega), Nat.cast_natAbs, Int.cast_abs]

/-- The two forms of `EncodeCore` agree (spec/40_common_numerics.md R61). -/
theorem encodeCore_eq_exactEncode (P : Precision) (opnd : Data) (e : Nat) :
    encodeCore P opnd e = exactEncode P opnd e := by
  rw [encodeCore, encodeCode_eq_exactCode, exactEncode]

/-! ## A command of given fields -/

/-- The word `OP ++ BITS` decodes to the command of its mnemonic (spec/30_encoding.md R42). -/
theorem decode_commandWord (m : Mnemonic) (bits : WidthField) (opnd : Data) :
    decode ⟨commandWord (opcodeOf m) bits, opnd⟩ = m.instr bits opnd := by
  rw [← instr_of_fields (decode _), decode_mnemonic, decode_bits, decode_opnd, fieldOp_commandWord,
    Laws.fieldBits_commandWord, mnemonicOf_opcodeOf]

/-- A command of an illegal width answers InvalidBitWidth (spec/60_exceptions.md R95). -/
theorem commandResponse_of_illegal {i : Instr} (h : ¬ LegalBits i.bits) : commandResponse i = ⟨0#64, 1#1⟩ :=
  if_neg (mt (legalWidth_iff _).1 h)

/-- The result of a command at width `e` in the rational forms of its core (spec/40_common_numerics.md R61, R65). -/
def exactResult (i : Instr) (e : Nat) : Data :=
  match i.mnemonic.dir with
  | .encode => exactEncode i.mnemonic.prec i.opnd e
  | .decode => exactDecode i.mnemonic.prec i.opnd e

/-- The result the step computes is the rational one. -/
theorem commandResult_eq_exactResult (i : Instr) {e : Nat} (he : e ≤ 32) : commandResult i e = exactResult i e := by
  unfold commandResult exactResult
  cases i.mnemonic.dir with
  | encode => exact encodeCore_eq_exactEncode _ _ e
  | decode => exact decodeCore_eq_exactDecode he _ _

/-- A command completes with its rational result, or with InvalidBitWidth at an illegal width, and changes nothing else
(spec/60_exceptions.md R95, R96). -/
theorem exec_completes {s : State} (hs : s.rsp = none) (i : Instr) :
    exec i s = .next
      { rsp := some (if 2 ≤ i.bits.toNat ∧ i.bits.toNat ≤ 32 then ⟨exactResult i i.bits.toNat, 0#1⟩ else ⟨0#64, 1#1⟩),
        inputs := s.inputs, offer := s.offer } := by
  have hresponse : commandResponse i =
      if 2 ≤ i.bits.toNat ∧ i.bits.toNat ≤ 32 then ⟨exactResult i i.bits.toNat, 0#1⟩ else ⟨0#64, 1#1⟩ := by
    split
    · next h => rw [commandResponse_of_legal h, commandResult_eq_exactResult i h.2]
    · next h => exact commandResponse_of_illegal h
  rw [exec_of_empty hs, hresponse]
  rfl

/-! ## The obligations -/

/-- Settles O30: both words are those of their mnemonics, both commands complete with the rational form of their encode,
and the examples are evaluated in the integer form. -/
theorem encodeBinary32Completes : Obligations.EncodeBinary32Completes := by
  refine ⟨fun bits opnd => ⟨?schemeA, ?schemeB⟩, fun bits opnd s hs i hi => ?completes, ?firstExample, ?secondExample⟩
  case schemeA => exact decode_commandWord ⟨.S, .A, .encode⟩ bits opnd
  case schemeB => exact decode_commandWord ⟨.S, .B, .encode⟩ bits opnd
  case completes => rcases hi with rfl | rfl <;> exact exec_completes hs _
  case firstExample => rw [← encodeCore_eq_exactEncode]; decide
  case secondExample => rw [← encodeCore_eq_exactEncode]; decide

/-- Settles O31: the argument of O30 at the mnemonics of binary64. -/
theorem encodeBinary64Completes : Obligations.EncodeBinary64Completes := by
  refine ⟨fun bits opnd => ⟨?schemeA, ?schemeB⟩, fun bits opnd s hs i hi => ?completes, ?firstExample, ?secondExample⟩
  case schemeA => exact decode_commandWord ⟨.D, .A, .encode⟩ bits opnd
  case schemeB => exact decode_commandWord ⟨.D, .B, .encode⟩ bits opnd
  case completes => rcases hi with rfl | rfl <;> exact exec_completes hs _
  case firstExample => rw [← encodeCore_eq_exactEncode]; decide
  case secondExample => rw [← encodeCore_eq_exactEncode]; decide

/-- Settles O33: the argument of O30 for the decodes, whose quotient is rounded alike in both forms of `rneP`. -/
theorem decodeBinary64Completes : Obligations.DecodeBinary64Completes := by
  refine ⟨fun bits opnd => ⟨?schemeA, ?schemeB⟩, fun bits opnd s hs i hi => ?completes, ?firstExample, ?secondExample⟩
  case schemeA => exact decode_commandWord ⟨.D, .A, .decode⟩ bits opnd
  case schemeB => exact decode_commandWord ⟨.D, .B, .decode⟩ bits opnd
  case completes => rcases hi with rfl | rfl <;> exact exec_completes hs _
  case firstExample => rw [← decodeCore_eq_exactDecode (by decide)]; decide
  case secondExample => rw [← decodeCore_eq_exactDecode (by decide)]; decide

end Sys2Proof.Machine
end

