-- ==== Sys2Proof/Proofs/Exceptions.lean ====
section
/-! PROOFS. The one exception (spec/60_exceptions.md R95, R96): the widths that raise it, and the two cycles in which a
failing command is answered and its response is taken. -/

namespace Sys2Proof.Machine

/-! ## The widths that raise InvalidBitWidth -/

/-- The illegal widths as spec/60_exceptions.md R95 lists them. -/
theorem not_legalBits_iff (bits : WidthField) :
    ¬ LegalBits bits ↔ bits.toNat = 0 ∨ bits.toNat = 1 ∨ (33 ≤ bits.toNat ∧ bits.toNat ≤ 63) := by
  have hfield : bits.toNat < 64 := bits.isLt
  unfold LegalBits
  omega

/-- `Execute` of a word with an illegal width is the response InvalidBitWidth (spec/60_exceptions.md R96). -/
theorem execute_of_illegal {c : Command} (h : ¬ LegalBits (decode c).bits) : execute c = ⟨0#64, 1#1⟩ := by
  rw [← commandResponse_decode, commandResponse_of_illegal h]

/-! ## A cycle that offers a command, and a cycle that takes a response -/

/-- An offer that stands is kept by offering its command again (spec/70_reset_and_hazards.md R114 (b)). -/
theorem keepsOffer_of_offered {q : Sample} {c : Command} {standing : Option Command} (hoffered : q.offered = some c)
    (hstanding : standing = none ∨ standing = some c) : q.keepsOffer standing = true := by
  rcases hstanding with rfl | rfl
  · rfl
  · exact decide_eq_true hoffered

/-- A command offered to an empty block is accepted at once (spec/10_state.md R20). -/
theorem edgeOf_offerCycle {s : State} {c : Command} {ready : Bit} {rest : List InputPins} (hrsp : s.rsp = none)
    (hinputs : s.inputs = offerCycle c ready :: rest) (hoffer : s.offer = none ∨ s.offer = some c) :
    edgeOf s = .accept c := by
  rw [edgeOf_of_sample hinputs (sample_offerCycle c ready), edge_eq_accept_iff]
  exact ⟨rfl, keepsOffer_of_offered rfl hoffer, hrsp, rfl⟩

/-- One cycle after its offer a command's answer is in `RSP` (spec/10_state.md R22). -/
theorem step_offerCycle {s : State} {c : Command} {ready : Bit} {rest : List InputPins} (hrsp : s.rsp = none)
    (hinputs : s.inputs = offerCycle c ready :: rest) (hoffer : s.offer = none ∨ s.offer = some c) :
    step s = .next { rsp := some (execute c), inputs := rest, offer := none } := by
  rw [step_of_accept_eq (edgeOf_offerCycle hrsp hinputs hoffer), State.nextCycle, setRsp_inputs, hinputs]
  rfl

/-- A pending response is taken in a cycle with `rsp_ready = 1` (spec/10_state.md R23). -/
theorem edgeOf_idleCycle_ready {s : State} {r : Response} {rest : List InputPins} (hrsp : s.rsp = some r)
    (hinputs : s.inputs = idleCycle 1#1 :: rest) (hoffer : s.offer = none) : edgeOf s = .deliver r := by
  rw [edgeOf_of_sample hinputs (sample_idleCycle 1#1), edge_eq_deliver_iff, hoffer]
  exact ⟨rfl, rfl, hrsp, rfl⟩

/-- After its response is taken nothing is left of a command but the inputs still to come. -/
theorem step_idleCycle_ready {s : State} {r : Response} {rest : List InputPins} (hrsp : s.rsp = some r)
    (hinputs : s.inputs = idleCycle 1#1 :: rest) (hoffer : s.offer = none) :
    step s = .next { rsp := none, inputs := rest, offer := none } := by
  have hnext : currentOffer s = none := currentOffer_of_sample hinputs (sample_idleCycle 1#1)
  rw [step_of_deliver (edgeOf_idleCycle_ready hrsp hinputs hoffer), hnext, State.nextCycle, emptyRsp_inputs, hinputs]
  rfl

/-! ## The obligations -/

/-- Settles O34: the listed widths are the illegal ones, and the response of every command is chosen by the width. -/
theorem invalidBitWidthExactlyOnIllegalWidth : Obligations.InvalidBitWidthExactlyOnIllegalWidth := by
  refine fun i s hs => ⟨fun hillegal => ?illegal, fun hlegal => ?legal⟩
  case illegal =>
    rw [exec_of_empty hs, commandResponse_of_illegal ((not_legalBits_iff _).2 hillegal)]
    rfl
  case legal =>
    refine ⟨commandResult i i.bits.toNat, ?_⟩
    rw [exec_of_empty hs, commandResponse_of_legal hlegal]
    rfl

/-- Settles O35: the first cycle accepts the command, whose `Execute` is the error response, and the second delivers it. -/
theorem failingCommandLeavesNothing : Obligations.FailingCommandLeavesNothing := by
  intro c ready rest hillegal s
  have haccepted : edgeOf s = .accept c := edgeOf_offerCycle rfl rfl (.inl rfl)
  have hanswered : step s = .next { rsp := some ⟨0#64, 1#1⟩, inputs := idleCycle 1#1 :: rest, offer := none } := by
    rw [step_offerCycle rfl rfl (.inl rfl), execute_of_illegal hillegal]
  refine ⟨?answered, ?taken, ?gone⟩
  case answered => rw [runCycles_succ hanswered, runCycles_zero]
  case taken =>
    rw [edgesOf_succ hanswered, edgesOf_succ (step_idleCycle_ready rfl rfl rfl), haccepted,
      edgeOf_idleCycle_ready rfl rfl rfl, takenResponses_accept, takenResponses_deliver, edgesOf_zero,
      takenResponses_nil]
  case gone => rw [runCycles_succ hanswered, runCycles_succ (step_idleCycle_ready rfl rfl rfl), runCycles_zero]

end Sys2Proof.Machine
end

