-- ==== Sys2Proof/Proofs/ResetAndHazards.lean ====
section
/-! PROOFS. Reset (spec/70_reset_and_hazards.md R110, R112): what a reset edge does, and that everything taken over a
run is the response `RSP` held at its start or answers a command accepted in it. -/

namespace Sys2Proof.Machine

open scoped List

/-! ## The reset edge -/

theorem edge_of_rst {q : Sample} (h : q.rst = 1#1) (rsp : Option Response) (standing : Option Command) :
    q.edge rsp standing = .reset := by
  simp [Sample.edge, h]

/-- An edge with `rst = 1` and defined pins is a reset, whatever `RSP` and the other pins are
(spec/70_reset_and_hazards.md R110). -/
theorem edgeOf_of_rst {s : State} {p : InputPins} {rest : List InputPins} {q : Sample}
    (hinputs : s.inputs = p :: rest) (hsample : p.sample = some q) (hrst : q.rst = 1#1) : edgeOf s = .reset := by
  rw [edgeOf_of_sample hinputs hsample, edge_of_rst hrst]

/-! ## What a run took and accepted, edge by edge -/

theorem acceptedCommands_cons (e : Edge) (es : List Edge) :
    acceptedCommands (e :: es) = acceptedCommands [e] ++ acceptedCommands es :=
  List.filterMap_append (l := [e])

theorem takenResponses_cons (e : Edge) (es : List Edge) :
    takenResponses (e :: es) = takenResponses [e] ++ takenResponses es :=
  List.filterMap_append (l := [e])

/-- A run of `n + 1` cycles goes on after its first edge, or ends there. -/
theorem edgesOf_succ_cases (n : Nat) (s : State) :
    (∃ t, step s = .next t ∧ edgesOf (n + 1) s = edgeOf s :: edgesOf n t) ∨ edgesOf (n + 1) s = [edgeOf s] := by
  cases h : step s with
  | next t => exact .inl ⟨t, rfl, edgesOf_succ h n⟩
  | fault _ => exact .inr (by simp [edgesOf, h])
  | refused _ => exact .inr (by simp [edgesOf, h])

/-! ## Nothing is taken that was not owed -/

/-- One edge takes at most the response that `RSP` holds. -/
theorem takenResponses_edgeOf_sublist (s : State) : takenResponses [edgeOf s] <+ s.rsp.toList := by
  cases h : edgeOf s with
  | deliver r => simp [rsp_some_of_deliver h]
  | noInput | undefinedInput | offerBroken | reset | accept _ | hold => simp

/-- What a step takes, and what it leaves in `RSP`, is the response it found there and the answer to the command it
accepted; only a reset drops one (spec/10_state.md R24). -/
theorem step_owed_sublist {s t : State} (h : step s = .next t) :
    takenResponses [edgeOf s] ++ t.rsp.toList <+ s.rsp.toList ++ (acceptedCommands [edgeOf s]).map execute := by
  rcases step_cases h with
    ⟨hedge, rfl⟩ | ⟨hedge, rfl⟩ | ⟨c, _, hedge, hempty, _, _⟩ | ⟨r, hedge, hpending, rfl⟩ | ⟨hedge, rfl⟩
  · simp [hedge]
  · simp [hedge]
  · cases (step_of_accept_eq hedge).symm.trans h
    simp [hedge, hempty]
  · simp [hedge, hpending]
  · simp [hedge]

/-- Over any number of cycles, resets and a stop on the way included, the responses taken are a sub-sequence of the one
that `RSP` held at the start and the answers to the commands accepted. -/
theorem takenResponses_sublist_owed (n : Nat) (s : State) :
    takenResponses (edgesOf n s) <+ s.rsp.toList ++ (acceptedCommands (edgesOf n s)).map execute := by
  induction n generalizing s with
  | zero => simp
  | succ n ih =>
    rcases edgesOf_succ_cases n s with ⟨t, hstep, hrun⟩ | hstop
    · rw [hrun, takenResponses_cons, acceptedCommands_cons, List.map_append, ← List.append_assoc]
      calc takenResponses [edgeOf s] ++ takenResponses (edgesOf n t)
        _ <+ takenResponses [edgeOf s] ++ (t.rsp.toList ++ (acceptedCommands (edgesOf n t)).map execute) :=
          (ih t).append_left _
        _ = (takenResponses [edgeOf s] ++ t.rsp.toList) ++ (acceptedCommands (edgesOf n t)).map execute :=
          (List.append_assoc ..).symm
        _ <+ (s.rsp.toList ++ (acceptedCommands [edgeOf s]).map execute) ++
            (acceptedCommands (edgesOf n t)).map execute := (step_owed_sublist hstep).append_right _
    · rw [hstop]
      exact (takenResponses_edgeOf_sublist s).trans (List.sublist_append_left ..)

/-! ## The obligations -/

/-- Settles O2: the edge is a reset, which accepts and takes nothing, and its step empties `RSP`. -/
theorem resetEdgeEmptiesRsp : Obligations.ResetEdgeEmptiesRsp := by
  intro s p rest q hinputs hsample hrst
  have hreset : edgeOf s = .reset := edgeOf_of_rst hinputs hsample hrst
  refine ⟨hreset, ?accepted, ?taken, _, step_of_reset hreset, rfl, ?inputs⟩
  case accepted => rw [hreset, acceptedCommands_reset, acceptedCommands_nil]
  case taken => rw [hreset, takenResponses_reset, takenResponses_nil]
  case inputs => rw [nextCycle_inputs, emptyRsp_inputs, hinputs, List.tail_cons]

/-- Settles O3: after the reset edge `RSP` is empty, so all that is taken from there on answers later commands. -/
theorem pendingResponseLostAtReset : Obligations.PendingResponseLostAtReset := by
  intro n s p rest q hinputs hsample hrst
  obtain ⟨hreset, haccepted, -, t, hstep, hempty, -⟩ := resetEdgeEmptiesRsp s p rest q hinputs hsample hrst
  refine ⟨haccepted, ?_⟩
  rw [edgesOf_succ hstep, hreset, takenResponses_reset, acceptedCommands_reset]
  simpa [hempty] using takenResponses_sublist_owed n t

end Sys2Proof.Machine
end

/-! PROOFS. The clock edge (spec/10_state.md R24, R27; spec/70_reset_and_hazards.md R110, R114, R117): one lemma says what
the step of a cycle with defined pins does, and the statements about single edges are read off it. -/

namespace Sys2Proof.Machine

/-! ## The step of a cycle with defined pins -/

/-- Everything the step of a sampled cycle can do, in the order of tests of spec/10_state.md R24, with the next state
written out. -/
theorem sampled_step_cases {s : State} {p : InputPins} {rest : List InputPins} {q : Sample}
    (hi : s.inputs = p :: rest) (hq : p.sample = some q) :
    (q.rst = 1#1 ∧ edgeOf s = .reset ∧ step s = .next ⟨none, rest, none⟩) ∨
    (q.rst = 0#1 ∧ q.keepsOffer s.offer = false ∧ edgeOf s = .offerBroken ∧ step s = .refused .offerBroken) ∨
    (q.rst = 0#1 ∧ q.keepsOffer s.offer = true ∧
      ((s.rsp = none ∧ ∃ c, q.offered = some c ∧ edgeOf s = .accept c ∧
          step s = .next ⟨some (execute c), rest, none⟩) ∨
       (s.rsp = none ∧ q.offered = none ∧ edgeOf s = .hold ∧ step s = .next ⟨none, rest, none⟩) ∨
       (∃ r, s.rsp = some r ∧ q.rspReady = 1#1 ∧ edgeOf s = .deliver r ∧
          step s = .next ⟨none, rest, q.offered⟩) ∨
       (∃ r, s.rsp = some r ∧ q.rspReady = 0#1 ∧ edgeOf s = .hold ∧
          step s = .next ⟨some r, rest, q.offered⟩))) := by
  have htail : s.inputs.tail = rest := by rw [hi, List.tail_cons]
  have hoffer := currentOffer_of_sample hi hq
  have hcases := edge_cases q s.rsp s.offer
  rw [← edgeOf_of_sample hi hq] at hcases
  simp only [bit_ne_one_iff] at hcases
  rcases hcases with
    ⟨hrst, e⟩ | ⟨hrst, hkeep, e⟩ |
      ⟨hrst, hkeep, ⟨hrsp, c, hoff, e⟩ | ⟨hrsp, hoff, e⟩ | ⟨r, hrsp, hready, e⟩ | ⟨r, hrsp, hready, e⟩⟩
  case inl => exact .inl ⟨hrst, e, by rw [step_of_reset e, ← htail]; rfl⟩
  case inr.inl => exact .inr (.inl ⟨hrst, hkeep, e, step_of_offerBroken e⟩)
  all_goals refine .inr (.inr ⟨hrst, hkeep, ?_⟩)
  · exact .inl ⟨hrsp, c, hoff, e, by rw [step_of_accept_eq e, ← htail]; rfl⟩
  · exact .inr (.inl ⟨hrsp, hoff, e, by rw [step_of_hold e, hoffer, hoff, ← htail, ← hrsp]; rfl⟩)
  · exact .inr (.inr (.inl ⟨r, hrsp, hready, e, by rw [step_of_deliver e, hoffer, ← htail]; rfl⟩))
  · exact .inr (.inr (.inr ⟨r, hrsp, hready, e, by rw [step_of_hold e, hoffer, ← htail, ← hrsp]; rfl⟩))

/-! ## The refused steps -/

theorem offered_eq_none_iff (q : Sample) : q.offered = none ↔ q.reqValid ≠ 1#1 := by
  unfold Sample.offered
  split <;> simp_all

theorem keepsOffer_eq_false_iff (q : Sample) (standing : Option Command) :
    q.keepsOffer standing = false ↔
      ∃ c, standing = some c ∧ ¬ (q.reqValid = 1#1 ∧ q.reqCmd = c.cmd ∧ q.reqOpnd = c.opnd) := by
  cases standing with
  | none => simp [Sample.keepsOffer]
  | some c =>
    obtain ⟨cmd, opnd⟩ := c
    rw [Sample.keepsOffer, decide_eq_false_iff_not, offered_eq_some_iff]
    simp [eq_comm]

/-- Without an undefined pin a step answers a next state or is refused for a broken offer. -/
theorem step_of_sample {s : State} {p : InputPins} {rest : List InputPins} {q : Sample}
    (hi : s.inputs = p :: rest) (hq : p.sample = some q) :
    (step s = .refused .offerBroken ↔ q.rst = 0#1 ∧ q.keepsOffer s.offer = false) ∧
    (step s = .refused .offerBroken ∨ ∃ t, step s = .next t) := by
  rcases sampled_step_cases hi hq with
    ⟨hrst, _, h⟩ | ⟨hrst, hkeep, _, h⟩ |
      ⟨_, hkeep, ⟨_, _, _, _, h⟩ | ⟨_, _, _, h⟩ | ⟨_, _, _, _, h⟩ | ⟨_, _, _, _, h⟩⟩
  · rw [h]; simp [hrst]
  · rw [h]; simp [hrst, hkeep]
  all_goals rw [h]; simp [hkeep]

theorem step_of_no_inputs {s : State} (hi : s.inputs = []) : step s = .next s :=
  step_of_noInput (by rw [edgeOf, hi])

theorem step_of_unsampled {s : State} {p : InputPins} {rest : List InputPins}
    (hi : s.inputs = p :: rest) (hq : p.sample = none) : step s = .refused .undefinedInput :=
  step_of_undefinedInput (by simp only [edgeOf, hi, hq])

/-! ## The obligations -/

/-- Settles O1: a reset state has an empty `RSP`, which is all the outputs look at. -/
theorem resetLeavesRspEmpty : Obligations.ResetLeavesRspEmpty := by
  refine ⟨⟨reset_rsp, outputs_of_empty reset_rsp⟩, fun s p rest q hi hq hrst => ?_⟩
  exact ⟨_, step_of_reset (edgeOf_of_rst hi hq hrst), rfl, outputs_of_empty rfl⟩

/-- Settles O8: the cases of a sampled step are the branches of the code block of R24; the duty leaves out the broken
offer. -/
theorem clockEdgeOrderOfTests : Obligations.ClockEdgeOrderOfTests := by
  intro s p rest q hi hq hduty
  rcases sampled_step_cases hi hq with
    ⟨hrst, _, h⟩ | ⟨hrst, hbroken, _, _⟩ |
      ⟨hrst, _, ⟨hrsp, c, hoff, _, h⟩ | ⟨hrsp, hoff, _, h⟩ | ⟨r, hrsp, hready, _, h⟩ | ⟨r, hrsp, hready, _, h⟩⟩
  · exact ⟨_, h, rfl, by simp [hrst]⟩
  · cases hbroken.symm.trans (keepsOffer_of_dutyKept hi hq hduty hrst)
  · obtain ⟨hvalid, rfl⟩ := (offered_eq_some_iff q c).1 hoff
    exact ⟨_, h, rfl, by simp [hrst, hrsp, hvalid]⟩
  · exact ⟨_, h, rfl, by simp [hrst, hrsp, (offered_eq_none_iff q).1 hoff]⟩
  · exact ⟨_, h, rfl, by simp [hrst, hrsp, hready]⟩
  · exact ⟨_, h, rfl, by simp [hrst, hrsp, hready]⟩

/-- Settles O11: without input a step answers the same state, with an undefined pin it is refused as such, and with
defined pins it is refused exactly where the offer is not kept. -/
theorem refusedExactlyOnBrokenDuty : Obligations.RefusedExactlyOnBrokenDuty := by
  intro s
  cases hi : s.inputs with
  | nil => simp [step_of_no_inputs hi]
  | cons p rest =>
    cases hq : p.sample with
    | none => simp [step_of_unsampled hi hq, hq, (sample_eq_none_iff p).1 hq]
    | some q =>
      obtain ⟨hbroken, hnext⟩ := step_of_sample hi hq
      have hdefined : step s ≠ .refused .undefinedInput := by
        rcases hnext with h | ⟨t, h⟩ <;> rw [h] <;> simp
      have hpins := (sample_eq_none_iff p).not.1 (by rw [hq]; simp)
      refine ⟨?undefinedInput, ?offerBroken, fun _ h => hnext.resolve_left h⟩
      case undefinedInput => simp [hdefined, hpins]
      case offerBroken =>
        rw [hbroken, keepsOffer_eq_false_iff]
        constructor
        · rintro ⟨hrst, c, hoffer, hne⟩
          exact ⟨p, rest, q, c, rfl, hq, hrst, hoffer, hne⟩
        · rintro ⟨p', rest', q', c, hcons, hq', hrst, hoffer, hne⟩
          cases hcons
          cases hq.symm.trans hq'
          exact ⟨hrst, c, hoffer, hne⟩

/-- Settles O12: an offer is left standing by the steps that find a response in `RSP`, and by no others. -/
theorem standingOfferIsTheUnacceptedOne : Obligations.StandingOfferIsTheUnacceptedOne := by
  intro s t p rest q hi hq hstep c
  rcases sampled_step_cases hi hq with
    ⟨hrst, _, h⟩ | ⟨_, _, _, h⟩ |
      ⟨hrst, _, ⟨hrsp, _, _, _, h⟩ | ⟨hrsp, _, _, h⟩ | ⟨r, hrsp, _, _, h⟩ | ⟨r, hrsp, _, _, h⟩⟩ <;>
    cases h.symm.trans hstep
  · simp [hrst]
  · simp [hrsp]
  · simp [hrsp]
  · simp [hrst, hrsp, offered_eq_some_iff]
  · simp [hrst, hrsp, offered_eq_some_iff]

/-- Settles O13: the accepting and the delivering edge are known by the pins (R20, R21), and each answers a next state. -/
theorem progressAtEveryEdge : Obligations.ProgressAtEveryEdge := by
  intro s p rest q hi hq hduty hrst
  constructor
  · intro hrsp hvalid
    have haccept : edgeOf s = .accept ⟨q.reqCmd, q.reqOpnd⟩ :=
      (acceptedExactlyWhenValidAndReady.2 s p rest q hi hq hduty _).2
        ⟨hrst, hvalid, (reqReady_eq_one_iff s).2 hrsp, rfl⟩
    exact ⟨haccept, _, _, step_of_accept_eq haccept, rfl⟩
  · intro r hrsp hready
    have hdeliver : edgeOf s = .deliver r := by
      rw [edgeOf_of_sample hi hq, edge_eq_deliver_iff]
      exact ⟨hrst, keepsOffer_of_dutyKept hi hq hduty hrst, hrsp, hready⟩
    exact ⟨hdeliver, _, step_of_deliver hdeliver, rfl⟩

/-- Settles O9: the edge accepts the offered command, and what follows is `afterAccept`. -/
theorem stepRunsDecodedCommand : Obligations.StepRunsDecodedCommand := by
  intro s p rest q hi hq hrst hvalid hrsp hstanding
  have hoffered : q.offered = some ⟨q.reqCmd, q.reqOpnd⟩ := (offered_eq_some_iff q _).2 ⟨hvalid, rfl⟩
  have haccept : edgeOf s = .accept ⟨q.reqCmd, q.reqOpnd⟩ := by
    rw [edgeOf_of_sample hi hq, edge_eq_accept_iff]
    exact ⟨hrst, keepsOffer_of_offered hoffered hstanding, hrsp, hoffered⟩
  refine ⟨step_of_accept haccept, fun t ht => ?_⟩
  rw [step_of_accept haccept, ht]
  rfl

/-- Settles O10: `exec` is an `answer`, which waits while a response is pending. -/
theorem busyBlockAcceptsNothing : Obligations.BusyBlockAcceptsNothing := by
  intro s r hrsp
  refine ⟨fun i => ?_, fun c haccept => ?_⟩
  · rw [exec_eq_answer, answer_of_pending hrsp]
  · cases hrsp.symm.trans (rsp_none_of_accept haccept)

end Sys2Proof.Machine

/-! PROOFS. Runs (spec/10_state.md R24, R25; spec/70_reset_and_hazards.md R116 to R118): what one step owes, takes and
leaves, as one lemma per property of runs, and each statement about a run by induction over its cycles. -/

namespace Sys2Proof.Machine

open scoped List

/-! ## Responses answer commands -/

/-- What a step takes, and what it leaves in `RSP`, is exactly what it found there and the answer to the command it
accepted, unless it is a reset (spec/10_state.md R24). -/
theorem step_owed_eq {s t : State} (h : step s = .next t) (hreset : edgeOf s ≠ .reset) :
    takenResponses [edgeOf s] ++ t.rsp.toList = s.rsp.toList ++ (acceptedCommands [edgeOf s]).map execute := by
  rcases step_cases h with
    ⟨hedge, rfl⟩ | ⟨hedge, _⟩ | ⟨c, _, hedge, hempty, _, _⟩ | ⟨r, hedge, hpending, rfl⟩ | ⟨hedge, rfl⟩
  · simp [hedge]
  · exact absurd hedge hreset
  · cases (step_of_accept_eq hedge).symm.trans h
    simp [hedge, hempty]
  · simp [hedge, hpending]
  · simp [hedge]

/-- Settles O16: the responses owed after the first cycle are those owed before it, less what that cycle took. -/
theorem responsesAnswerCommandsInOrder : Obligations.ResponsesAnswerCommandsInOrder := by
  intro n
  induction n with
  | zero =>
    intro s t hrun _
    cases hrun
    simp
  | succ n ih =>
    intro s t hrun hreset
    obtain ⟨u, hstep, hrest⟩ := runCycles_succ_eq_some hrun
    rw [edgesOf_succ hstep] at hreset ⊢
    obtain ⟨hfirst, hlater⟩ := not_or.1 (mt List.mem_cons.2 hreset)
    rw [takenResponses_cons, acceptedCommands_cons, List.map_append, List.append_assoc, ih u t hrest hlater,
      ← List.append_assoc, step_owed_eq hstep (Ne.symm hfirst), List.append_assoc]

/-- Settles O17: as O16, with a sub-sequence in place of the equation, which a reset edge breaks. -/
theorem resetsOnlyDropResponses : Obligations.ResetsOnlyDropResponses := by
  intro n
  induction n with
  | zero =>
    intro s t hrun
    cases hrun
    simp
  | succ n ih =>
    intro s t hrun
    obtain ⟨u, hstep, hrest⟩ := runCycles_succ_eq_some hrun
    rw [edgesOf_succ hstep, takenResponses_cons, acceptedCommands_cons, List.map_append]
    calc takenResponses [edgeOf s] ++ takenResponses (edgesOf n u) ++ t.rsp.toList
      _ = takenResponses [edgeOf s] ++ (takenResponses (edgesOf n u) ++ t.rsp.toList) := List.append_assoc ..
      _ <+ takenResponses [edgeOf s] ++ (u.rsp.toList ++ (acceptedCommands (edgesOf n u)).map execute) :=
        (ih u t hrest).append_left _
      _ = (takenResponses [edgeOf s] ++ u.rsp.toList) ++ (acceptedCommands (edgesOf n u)).map execute :=
        (List.append_assoc ..).symm
      _ <+ (s.rsp.toList ++ (acceptedCommands [edgeOf s]).map execute) ++
          (acceptedCommands (edgesOf n u)).map execute := (step_owed_sublist hstep).append_right _
      _ = s.rsp.toList ++
          ((acceptedCommands [edgeOf s]).map execute ++ (acceptedCommands (edgesOf n u)).map execute) :=
        List.append_assoc ..

/-- Settles O18: O16 counted, with the pending response as the one that is owed. -/
theorem quiescentMeansAllAnswered : Obligations.QuiescentMeansAllAnswered := by
  intro n s t hempty hrun hreset
  have hcount := congrArg List.length (responsesAnswerCommandsInOrder n s t hrun hreset)
  simp only [hempty, Option.toList_none, List.nil_append, List.length_append, List.length_map] at hcount
  rw [runOver_eq_true_iff]
  cases hrsp : t.rsp with
  | none =>
    rw [hrsp, Option.toList_none, List.length_nil, Nat.add_zero] at hcount
    simp [State.quiescent, hrsp, hcount]
  | some r =>
    rw [hrsp, Option.toList_some, List.length_singleton] at hcount
    simp [State.quiescent, hrsp, ← hcount]

/-! ## The invariant of pending answers -/

/-- Settles O21: only an accepting edge fills `RSP`, and it fills it with `Execute` of its command. -/
theorem stepKeepsPendingAnAnswer : Obligations.StepKeepsPendingAnAnswer := by
  intro s t hs hstep
  rcases step_cases hstep with ⟨_, rfl⟩ | ⟨_, rfl⟩ | ⟨c, _, hedge, _⟩ | ⟨_, _, _, rfl⟩ | ⟨_, rfl⟩
  case inl => exact hs
  case inr.inl => exact fun r h => nomatch h
  case inr.inr.inl =>
    cases (step_of_accept_eq hedge).symm.trans hstep
    exact fun r h => ⟨c, Option.some.inj h⟩
  case inr.inr.inr.inl => exact fun r h => nomatch h
  case inr.inr.inr.inr => exact hs

/-- Settles O22: `RSP` is empty at reset. -/
theorem resetPendingIsAnAnswer : Obligations.ResetPendingIsAnAnswer := fun _ h => nomatch h

/-! ## Clocked runs and runs of the clock-free view -/

theorem fireAll_cons {t : Transition} {ts : List Transition} {rsp rsp' last : Option Response}
    {out outs : List Response} (hfirst : fire t rsp = some (rsp', out)) (hlater : fireAll ts rsp' = some (last, outs)) :
    fireAll (t :: ts) rsp = some (last, out ++ outs) := by
  simp [fireAll, hfirst, hlater]

/-- A run of `t` and then `ts` fires `t` and runs `ts`. -/
theorem fireAll_cons_eq_some {t : Transition} {ts : List Transition} {rsp last : Option Response}
    {outs : List Response} (h : fireAll (t :: ts) rsp = some (last, outs)) :
    ∃ rsp' out outs', fire t rsp = some (rsp', out) ∧ fireAll ts rsp' = some (last, outs') ∧ outs = out ++ outs' := by
  simp only [fireAll, Option.bind_eq_some_iff, Option.map_eq_some_iff, Prod.exists, Prod.mk.injEq] at h
  obtain ⟨rsp', out, hfirst, last', outs', hlater, rfl, rfl⟩ := h
  exact ⟨rsp', out, outs', hfirst, hlater, rfl⟩

/-- The transition of a step, if it makes one, is enabled and hands over what the step takes; an idle cycle changes
nothing in `RSP` and takes nothing (spec/10_state.md R25). -/
theorem step_fires {s t : State} (h : step s = .next t) :
    (transitionOf (edgeOf s) = none ∧ t.rsp = s.rsp ∧ takenResponses [edgeOf s] = []) ∨
    ∃ tr, transitionOf (edgeOf s) = some tr ∧ fire tr s.rsp = some (t.rsp, takenResponses [edgeOf s]) := by
  rcases step_cases h with
    ⟨hedge, rfl⟩ | ⟨hedge, rfl⟩ | ⟨c, _, hedge, hempty, _, _⟩ | ⟨r, hedge, hpending, rfl⟩ | ⟨hedge, rfl⟩
  case inl => exact .inl (by simp [hedge])
  case inr.inl => exact .inr ⟨.reset, by simp [hedge, fire]⟩
  case inr.inr.inl =>
    cases (step_of_accept_eq hedge).symm.trans h
    exact .inr ⟨.accept c, by simp [hedge, hempty, fire]⟩
  case inr.inr.inr.inl => exact .inr ⟨.deliver, by simp [hedge, hpending, fire]⟩
  case inr.inr.inr.inr => exact .inl (by simp [hedge])

/-- Settles O19: each step fires its transition or is idle. -/
theorem clockedRunsAreClockFreeRuns : Obligations.ClockedRunsAreClockFreeRuns := by
  intro n
  induction n with
  | zero =>
    intro s t hrun
    cases hrun
    rfl
  | succ n ih =>
    intro s t hrun
    obtain ⟨u, hstep, hrest⟩ := runCycles_succ_eq_some hrun
    rw [edgesOf_succ hstep, takenResponses_cons]
    rcases step_fires hstep with ⟨hidle, hrsp, htaken⟩ | ⟨tr, htr, hfire⟩
    · rw [List.filterMap_cons_none hidle, htaken, List.nil_append, ← hrsp, ih u t hrest]
    · rw [List.filterMap_cons_some htr, fireAll_cons hfire (ih u t hrest)]

/-- A cycle of inputs in which the block makes a given transition, where it is enabled. -/
def cycleOf (t : Transition) : InputPins :=
  match t with
  | .accept c => offerCycle c 0#1
  | .deliver => idleCycle 1#1
  | .reset => resetCycle

/-- In the cycle of an enabled transition the block makes that transition, and no offer is left standing. -/
theorem step_cycleOf {t : Transition} {rsp rsp' : Option Response} {out : List Response}
    (h : fire t rsp = some (rsp', out)) (rest : List InputPins) :
    step ⟨rsp, cycleOf t :: rest, none⟩ = .next ⟨rsp', rest, none⟩ ∧
      transitionOf (edgeOf ⟨rsp, cycleOf t :: rest, none⟩) = some t ∧
      takenResponses [edgeOf ⟨rsp, cycleOf t :: rest, none⟩] = out := by
  cases t with
  | accept c =>
    cases rsp with
    | some r => cases h
    | none =>
      cases h
      have hedge : edgeOf ⟨none, cycleOf (.accept c) :: rest, none⟩ = .accept c := edgeOf_offerCycle rfl rfl (.inl rfl)
      exact ⟨step_offerCycle rfl rfl (.inl rfl), by rw [hedge]; rfl, by rw [hedge]; rfl⟩
  | deliver =>
    cases rsp with
    | none => cases h
    | some r =>
      cases h
      have hedge : edgeOf ⟨some r, cycleOf .deliver :: rest, none⟩ = .deliver r := edgeOf_idleCycle_ready rfl rfl rfl
      exact ⟨step_idleCycle_ready rfl rfl rfl, by rw [hedge]; rfl, by rw [hedge]; rfl⟩
  | reset =>
    cases h
    have hedge : edgeOf ⟨rsp, cycleOf .reset :: rest, none⟩ = .reset := edgeOf_of_rst rfl sample_resetCycle rfl
    exact ⟨step_of_reset hedge, by rw [hedge]; rfl, by rw [hedge]; rfl⟩

/-- The run of the cycles of an enabled sequence of transitions, with any inputs after them. -/
theorem runCycles_cycleOf (ts : List Transition) {rsp last : Option Response} {outs : List Response}
    (h : fireAll ts rsp = some (last, outs)) (rest : List InputPins) :
    runCycles ts.length ⟨rsp, ts.map cycleOf ++ rest, none⟩ = some ⟨last, rest, none⟩ ∧
      (edgesOf ts.length ⟨rsp, ts.map cycleOf ++ rest, none⟩).filterMap transitionOf = ts ∧
      takenResponses (edgesOf ts.length ⟨rsp, ts.map cycleOf ++ rest, none⟩) = outs := by
  induction ts generalizing rsp outs with
  | nil =>
    cases h
    exact ⟨rfl, rfl, rfl⟩
  | cons t ts ih =>
    obtain ⟨rsp', out, outs', hfirst, hlater, rfl⟩ := fireAll_cons_eq_some h
    obtain ⟨hstep, htransition, htaken⟩ := step_cycleOf hfirst (ts.map cycleOf ++ rest)
    obtain ⟨hrun, htransitions, houts⟩ := ih hlater
    rw [List.map_cons, List.cons_append, List.length_cons, runCycles_succ hstep, edgesOf_succ hstep,
      List.filterMap_cons_some htransition, takenResponses_cons, htransitions, htaken, houts]
    exact ⟨hrun, rfl, rfl⟩

/-- Settles O20: the inputs are the cycles of the transitions, and no offer is ever left standing. -/
theorem clockFreeRunsAreClockedRuns : Obligations.ClockFreeRunsAreClockedRuns := by
  intro ts rsp last outs h
  obtain ⟨hrun, htransitions, houts⟩ := runCycles_cycleOf ts h []
  rw [List.append_nil] at hrun htransitions houts
  exact ⟨ts.map cycleOf, ⟨last, [], none⟩, by rw [List.length_map]; exact ⟨hrun, rfl, htransitions, houts⟩⟩

/-! ## A requester that waits -/

/-- A response is held in a cycle with `rsp_ready = 0` (spec/10_state.md R21). -/
theorem step_idleCycle_waiting (r : Response) (rest : List InputPins) :
    edgeOf ⟨some r, idleCycle 0#1 :: rest, none⟩ = .hold ∧
      step ⟨some r, idleCycle 0#1 :: rest, none⟩ = .next ⟨some r, rest, none⟩ := by
  have hedge : edgeOf ⟨some r, idleCycle 0#1 :: rest, none⟩ = .hold := rfl
  exact ⟨hedge, step_of_hold hedge⟩

theorem runCycles_waiting (r : Response) (j k : Nat) (rest : List InputPins) :
    runCycles j ⟨some r, List.replicate (j + k) (idleCycle 0#1) ++ rest, none⟩ =
      some ⟨some r, List.replicate k (idleCycle 0#1) ++ rest, none⟩ := by
  induction j with
  | zero => rw [Nat.zero_add, runCycles_zero]
  | succ j ih =>
    rw [Nat.succ_add, List.replicate_succ, List.cons_append, runCycles_succ (step_idleCycle_waiting r _).2, ih]

/-- A pending response that waits through `k` cycles is taken in the next one. -/
theorem runCycles_taken_after_waiting (r : Response) (k : Nat) (rest : List InputPins) :
    runCycles (k + 1) ⟨some r, List.replicate k (idleCycle 0#1) ++ idleCycle 1#1 :: rest, none⟩ =
        some ⟨none, rest, none⟩ ∧
      takenResponses (edgesOf (k + 1) ⟨some r, List.replicate k (idleCycle 0#1) ++ idleCycle 1#1 :: rest, none⟩) =
        [r] := by
  induction k with
  | zero =>
    have hedge := edgeOf_idleCycle_ready (s := ⟨some r, idleCycle 1#1 :: rest, none⟩) rfl rfl rfl
    have hstep := step_idleCycle_ready (s := ⟨some r, idleCycle 1#1 :: rest, none⟩) rfl rfl rfl
    rw [List.replicate_zero, List.nil_append, runCycles_succ hstep, edgesOf_succ hstep, hedge]
    exact ⟨rfl, rfl⟩
  | succ k ih =>
    obtain ⟨hedge, hstep⟩ := step_idleCycle_waiting r (List.replicate k (idleCycle 0#1) ++ idleCycle 1#1 :: rest)
    rw [List.replicate_succ, List.cons_append, runCycles_succ hstep, edgesOf_succ hstep, hedge, takenResponses_hold]
    exact ih

/-- Settles O14: the first cycle accepts the command, the waiting cycles hold its answer, and the last one delivers it. -/
theorem commandAnsweredAfterWaiting : Obligations.CommandAnsweredAfterWaiting := by
  intro c k ready rest s hrsp hoffer hinputs
  have hstep := step_offerCycle hrsp hinputs hoffer
  obtain ⟨hrun, htaken⟩ := runCycles_taken_after_waiting (execute c) k rest
  refine ⟨fun j hj => ?held, ?run, ?taken⟩
  case held =>
    have hwait := runCycles_waiting (execute c) j (k - j) (idleCycle 1#1 :: rest)
    rw [Nat.add_sub_cancel' hj] at hwait
    exact ⟨_, (runCycles_succ hstep j).trans hwait, outputs_of_pending rfl⟩
  case run => rw [runCycles_succ hstep, hrun]
  case taken =>
    rw [edgesOf_succ hstep, edgeOf_offerCycle hrsp hinputs hoffer, takenResponses_accept, htaken]

/-! ## A requester that is always ready -/

/-- While a response is taken the next command may be on the request port already; it is then left standing. -/
theorem step_takingCycle (r : Response) (next : Option Command) (early : Bool) (rest : List InputPins) :
    edgeOf ⟨some r, takingCycle next early :: rest, none⟩ = .deliver r ∧
      ∃ standing, (standing = none ∨ standing = next) ∧
        step ⟨some r, takingCycle next early :: rest, none⟩ = .next ⟨none, rest, standing⟩ := by
  have hidle := step_idleCycle_ready (s := ⟨some r, idleCycle 1#1 :: rest, none⟩) rfl rfl rfl
  cases next with
  | none => exact ⟨rfl, none, .inl rfl, hidle⟩
  | some c =>
    cases early with
    | false => exact ⟨rfl, none, .inl rfl, hidle⟩
    | true =>
      have hedge : edgeOf ⟨some r, takingCycle (some c) true :: rest, none⟩ = .deliver r := rfl
      exact ⟨hedge, some c, .inr rfl, step_of_deliver hedge⟩

/-- Settles O15: each command takes its two cycles, and the next one finds an empty block again. -/
theorem oneCommandPerTwoCycles : Obligations.OneCommandPerTwoCycles := by
  intro cs rest
  induction cs with
  | nil =>
    intro standing hstanding
    have hnone : standing = none := by simpa using hstanding
    subst hnone
    exact ⟨rfl, rfl, rfl⟩
  | cons first later ih =>
    obtain ⟨c, early⟩ := first
    intro standing hstanding s
    have hinputs : s.inputs =
        offerCycle c 1#1 :: takingCycle (later.head?.map Prod.fst) early :: (backToBack later ++ rest) := rfl
    have haccept := step_offerCycle rfl hinputs hstanding
    obtain ⟨hdelivers, standing', hstanding', hdeliver⟩ :=
      step_takingCycle (execute c) (later.head?.map Prod.fst) early (backToBack later ++ rest)
    obtain ⟨hrun, haccepted, htaken⟩ := ih standing' hstanding'
    have hlength : 2 * ((c, early) :: later).length = 2 * later.length + 1 + 1 := by
      rw [List.length_cons]; omega
    rw [hlength, runCycles_succ haccept, runCycles_succ hdeliver, edgesOf_succ haccept, edgesOf_succ hdeliver,
      edgeOf_offerCycle rfl hinputs hstanding, hdelivers]
    refine ⟨hrun, ?accepted, ?taken⟩
    case accepted => rw [acceptedCommands_accept, acceptedCommands_deliver, haccepted, List.map_cons]
    case taken => rw [takenResponses_accept, takenResponses_deliver, htaken, List.map_cons]

/-! ## A run that is over -/

/-- Where the coming cycles offer nothing, the current one does not. -/
theorem currentOffer_eq_none {s : State} (h : ∀ p ∈ s.inputs, p.reqValid = some 0#1) : currentOffer s = none := by
  cases hi : s.inputs with
  | nil => rw [currentOffer, hi]
  | cons p rest =>
    have hvalid : p.reqValid = some 0#1 := h p (by rw [hi]; exact List.mem_cons_self)
    cases hq : p.sample with
    | none => simp only [currentOffer, hi, hq, Option.bind_none]
    | some q =>
      obtain ⟨_, hq0, _⟩ := (sample_eq_some_iff p q).1 hq
      rw [currentOffer_of_sample hi hq, offered_eq_none_iff]
      rw [hvalid, Option.some.injEq] at hq0
      rw [← hq0]
      decide

/-- An accepted command is the one the current cycle offers. -/
theorem currentOffer_of_accept {s : State} {c : Command} (h : edgeOf s = .accept c) : currentOffer s = some c := by
  cases hi : s.inputs with
  | nil => rw [edgeOf, hi] at h; cases h
  | cons p rest =>
    cases hq : p.sample with
    | none => simp only [edgeOf, hi, hq] at h; cases h
    | some q =>
      rw [edgeOf_of_sample hi hq] at h
      obtain ⟨_, _, _, hoffered⟩ := (edge_eq_accept_iff q _ _ c).1 h
      rw [currentOffer_of_sample hi hq, hoffered]

/-- A step of a run that is over accepts and takes nothing, and the run stays over (spec/70_reset_and_hazards.md R118). -/
theorem step_of_runOver {s t : State} (hover : runOver s = true) (hstep : step s = .next t) :
    acceptedCommands [edgeOf s] = [] ∧ takenResponses [edgeOf s] = [] ∧ runOver t = true := by
  obtain ⟨hinputs, hoffer, hrsp⟩ := (runOver_eq_true_iff s).1 hover
  have hnone := currentOffer_eq_none hinputs
  have htail : ∀ p ∈ s.inputs.tail, p.reqValid = some 0#1 := fun p hp => hinputs p (List.mem_of_mem_tail hp)
  rw [runOver_eq_true_iff]
  rcases step_cases hstep with
    ⟨hedge, rfl⟩ | ⟨hedge, rfl⟩ | ⟨c, _, hedge, _⟩ | ⟨r, _, hpending, _⟩ | ⟨hedge, rfl⟩
  case inl => exact ⟨by rw [hedge]; rfl, by rw [hedge]; rfl, hinputs, hoffer, hrsp⟩
  case inr.inl => exact ⟨by rw [hedge]; rfl, by rw [hedge]; rfl, htail, rfl, rfl⟩
  case inr.inr.inl => cases hnone.symm.trans (currentOffer_of_accept hedge)
  case inr.inr.inr.inl => cases hrsp.symm.trans hpending
  case inr.inr.inr.inr => exact ⟨by rw [hedge]; rfl, by rw [hedge]; rfl, htail, hnone, hrsp⟩

/-- Settles O57: every cycle keeps the run over. -/
theorem overRunStaysOver : Obligations.OverRunStaysOver := by
  intro n
  induction n with
  | zero =>
    intro s t hover hrun
    cases hrun
    exact ⟨rfl, rfl, hover⟩
  | succ n ih =>
    intro s t hover hrun
    obtain ⟨u, hstep, hrest⟩ := runCycles_succ_eq_some hrun
    obtain ⟨haccepted, htaken, hover'⟩ := step_of_runOver hover hstep
    obtain ⟨haccepted', htaken', hend⟩ := ih u t hover' hrest
    rw [edgesOf_succ hstep, acceptedCommands_cons, takenResponses_cons, haccepted, htaken, haccepted', htaken']
    exact ⟨rfl, rfl, hend⟩

end Sys2Proof.Machine

/-! PROOFS. Command words and what single commands answer (spec/30_encoding.md R41 to R49, spec/42_scheme_b_with_zero.md
R87, R89): encode and decode as inverses, the opcode map, the bits of a command that its answer does not depend on, and
the document's written-out examples. -/

namespace Sys2Proof.Machine

/-! ## Words and opcodes -/

/-- The word of a command is `(OP << 6) | e` (spec/30_encoding.md R42). -/
theorem commandWord_toNat (op : BitVec 3) (bits : WidthField) :
    (commandWord op bits).toNat = 64 * op.toNat + bits.toNat := by
  have hop := fieldOp_toNat (commandWord op bits)
  have hbits := fieldBits_toNat (commandWord op bits)
  rw [fieldOp_commandWord] at hop
  rw [Laws.fieldBits_commandWord] at hbits
  omega

/-- The mask of the opcode map keeps OP and clears BITS (spec/30_encoding.md R42). -/
theorem and_opcodeMask (w : CmdWord) : w &&& 0x1C0#9 = commandWord (fieldOp w) 0#6 := by
  have hmask : (0x1C0#9 : CmdWord) = commandWord (BitVec.allOnes 3) 0#6 := rfl
  calc w &&& 0x1C0#9
      = commandWord (fieldOp w) (fieldBits w) &&& commandWord (BitVec.allOnes 3) 0#6 := by
        rw [commandWord_fields, hmask]
    _ = commandWord (fieldOp w) 0#6 := by
        rw [commandWord, commandWord, commandWord, BitVec.and_append, BitVec.and_allOnes, BitVec.and_zero]

theorem commandWord_zero_inj {op op' : BitVec 3} : commandWord op 0#6 = commandWord op' 0#6 ↔ op = op' := by
  refine ⟨fun h => ?_, fun h => h ▸ rfl⟩
  rw [← fieldOp_commandWord op 0#6, h, fieldOp_commandWord]

theorem mnemonicOf_eq_iff (op : BitVec 3) (m : Mnemonic) : mnemonicOf op = m ↔ op = opcodeOf m := by
  refine ⟨fun h => ?_, fun h => ?_⟩
  · rw [← h, opcodeOf_mnemonicOf]
  · rw [h, mnemonicOf_opcodeOf]

/-- The row of the opcode map of a mnemonic. -/
def rowOf (m : Mnemonic) : OpcodeRow := ⟨m, commandWord (opcodeOf m) 0#6, 0x1C0#9⟩

theorem rowOf_mem (m : Mnemonic) : rowOf m ∈ opcodeMap := by
  obtain ⟨prec, scheme, dir⟩ := m
  cases prec <;> cases scheme <;> cases dir <;> decide

theorem eq_rowOf_of_mem : ∀ row ∈ opcodeMap, row = rowOf row.mnemonic := by decide

/-- Settles O24: a command is the one of its mnemonic and fields, whose word decodes to these. -/
theorem decodeOfEncodeIsIdentity : Obligations.DecodeOfEncodeIsIdentity := by
  intro i
  rw [← instr_of_fields i, encode_instr, decode_commandWord]

/-- Settles O25: the mnemonic is the opcode, and OP and BITS are the whole word. -/
theorem encodeOfDecodeIsIdentity : Obligations.EncodeOfDecodeIsIdentity := encode_decode

/-- Settles O27: masking leaves OP over zeros, and OP is the mnemonic. -/
theorem decodeFollowsOpcodeMap : Obligations.DecodeFollowsOpcodeMap := by
  refine ⟨fun c row hrow => ?_, fun i => ⟨rowOf i.mnemonic, rowOf_mem _, rfl, ?_⟩⟩
  · have hmask : row.mask = 0x1C0#9 := congrArg OpcodeRow.mask (eq_rowOf_of_mem row hrow)
    have hvalue : row.value = commandWord (opcodeOf row.mnemonic) 0#6 :=
      congrArg OpcodeRow.value (eq_rowOf_of_mem row hrow)
    rw [hmask, hvalue, and_opcodeMask, commandWord_zero_inj, decode_mnemonic, mnemonicOf_eq_iff]
  · conv_lhs => rw [← instr_of_fields i, encode_instr]
    rw [rowOf, commandWord_toNat, commandWord_toNat]
    rfl

/-- Settles O28: eight evaluations of the decoder. -/
theorem writtenOutWordsDecode : Obligations.WrittenOutWordsDecode :=
  ⟨rfl, rfl, rfl, rfl, rfl, rfl, rfl, rfl⟩

/-- Settles O55: the lines are read, assembled and executed. -/
theorem assemblerExamples : Obligations.AssemblerExamples := by
  refine ⟨?_, ?_, ?_, ?_, ?_, ?_, ?_, ?_, ?_, ?_⟩ <;> decide +kernel

/-! ## What the answer of a command does not depend on -/

theorem commandResponse_congr {i j : Instr} (hbits : i.bits = j.bits)
    (hresult : LegalBits i.bits → commandResult i = commandResult j) : commandResponse i = commandResponse j := by
  by_cases h : LegalBits i.bits
  · rw [commandResponse_of_legal h, commandResponse_of_legal (hbits ▸ h), hresult h, hbits]
  · rw [commandResponse_of_illegal h, commandResponse_of_illegal (hbits ▸ h)]

theorem legalBits_decode_iff (c : Command) :
    LegalBits (decode c).bits ↔ ¬ (c.cmd.toNat % 64 < 2 ∨ 32 < c.cmd.toNat % 64) := by
  rw [LegalBits, decode_bits, fieldBits_toNat]
  omega

/-- A decode reads bits 31:0 of the operand (spec/30_encoding.md R44). -/
theorem decodeCore_congr {a b : Data} (h : lowWord a = lowWord b) (P : Precision) (e : Nat) :
    decodeCore P a e = decodeCore P b e := by
  rw [decodeCore, decodeCore, codeOperand, codeOperand, h]

/-- A binary32 encode reads bits 31:0 of the operand (spec/30_encoding.md R44). -/
theorem encodeCore_S_congr {a b : Data} (h : lowWord a = lowWord b) (e : Nat) :
    encodeCore .S a e = encodeCore .S b e := by
  rw [encodeCore, encodeCore, floatOperand, floatOperand, h]

/-- Settles O36: the core of a decode or of a binary32 encode reads the low word alone, and the response to an illegal
width reads no operand. -/
theorem ignoredOperandBits : Obligations.IgnoredOperandBits := by
  intro cmd a b
  have hmnemonic : (decode ⟨cmd, a⟩).mnemonic = (decode ⟨cmd, b⟩).mnemonic := by
    rw [decode_mnemonic, decode_mnemonic]
  have hbits : (decode ⟨cmd, a⟩).bits = (decode ⟨cmd, b⟩).bits := by rw [decode_bits, decode_bits]
  obtain ⟨hprec, _, hdir, _⟩ := fieldsOfTheCommandWord ⟨cmd, a⟩
  rw [← commandResponse_decode, ← commandResponse_decode]
  refine ⟨fun hkind hlow => commandResponse_congr hbits fun _ => ?_, fun hillegal => ?_⟩
  · funext e
    simp only [commandResult, ← hmnemonic, decode_opnd]
    cases hd : (decode ⟨cmd, a⟩).mnemonic.dir with
    | decode => exact decodeCore_congr hlow _ e
    | encode =>
      cases hp : (decode ⟨cmd, a⟩).mnemonic.prec with
      | S => exact encodeCore_S_congr hlow e
      | D =>
        rw [hp, eq_self, true_iff] at hprec
        have hencode : ¬ cmd.toNat / 64 % 2 = 1 := by rw [← hdir, hd]; decide
        simp only at hprec
        omega
  · exact commandResponse_congr hbits fun hlegal => absurd hillegal ((legalBits_decode_iff _).1 hlegal)

/-- Settles O29: the error response is that of the illegal widths, and the words are counted. -/
theorem invalidWordsAreThoseWithIllegalWidth : Obligations.InvalidWordsAreThoseWithIllegalWidth := by
  refine ⟨fun c => ?_, by decide +kernel, by decide +kernel⟩
  rw [← commandResponse_decode]
  by_cases h : LegalBits (decode c).bits
  · rw [commandResponse_of_legal h]
    exact iff_of_false (by decide : ¬ (0#1 = 1#1)) ((legalBits_decode_iff c).1 h)
  · rw [commandResponse_of_illegal h]
    exact iff_of_true rfl (not_not.1 (mt (legalBits_decode_iff c).2 h))

/-- Settles O52: the response looks at the width, the precision, the direction and the operand. -/
theorem schemesAnswerAlike : Obligations.SchemesAnswerAlike := by
  intro P dir bits opnd s hs
  have halike : commandResponse (Mnemonic.instr ⟨P, .B, dir⟩ bits opnd) =
      commandResponse (Mnemonic.instr ⟨P, .A, dir⟩ bits opnd) := by
    refine commandResponse_congr (by rw [instr_bits, instr_bits]) fun _ => ?_
    funext e
    simp only [commandResult, instr_mnemonic, instr_opnd]
  exact ⟨_, exec_of_empty hs _, by rw [exec_of_empty hs, halike]; rfl⟩

/-- Settles O32: the argument of O33 at the mnemonics of binary32. -/
theorem decodeBinary32Completes : Obligations.DecodeBinary32Completes := by
  refine ⟨fun bits opnd => ⟨?schemeA, ?schemeB⟩, fun bits opnd s hs i hi => ?completes, ?firstExample, ?secondExample⟩
  case schemeA => exact decode_commandWord ⟨.S, .A, .decode⟩ bits opnd
  case schemeB => exact decode_commandWord ⟨.S, .B, .decode⟩ bits opnd
  case completes => rcases hi with rfl | rfl <;> exact exec_completes hs _
  case firstExample => rw [← decodeCore_eq_exactDecode (by decide)]; decide
  case secondExample => rw [← decodeCore_eq_exactDecode (by decide)]; decide

/-- Settles O53: nine evaluations. -/
theorem documentScenarios : Obligations.DocumentScenarios := by
  unfold Obligations.DocumentScenarios
  decide

/-- Settles O50: two evaluations. -/
theorem codeRoundTripFailsAtWidth26 : Obligations.CodeRoundTripFailsAtWidth26 := by
  unfold Obligations.CodeRoundTripFailsAtWidth26
  decide

end Sys2Proof.Machine

/-! PROOFS. Encode (spec/40_common_numerics.md R56 to R62, R67 to R69): rounding half away from zero is a nearest integer
and monotone, codes fit their width, and the sign bit of an operand or of a code goes through both directions. -/

namespace Sys2Proof.Machine

/-! ## `rha`, rounding half away from zero -/

theorem rha_bounds_of_nonneg {p : ℚ} (h : 0 ≤ p) :
    p - 1 / 2 < (rha p : ℚ) ∧ (rha p : ℚ) ≤ p + 1 / 2 ∧ 0 ≤ rha p := by
  rw [rha_of_nonneg h]
  exact ⟨by linarith [Int.lt_floor_add_one (p + 1 / 2)], Int.floor_le _, Int.floor_nonneg.2 (by linarith)⟩

/-- What holds of every nonnegative number, and of `-p` where it holds of `p`, holds of all. -/
theorem forall_of_nonneg_of_neg {motive : ℚ → Prop} (hnonneg : ∀ p, 0 ≤ p → motive p)
    (hneg : ∀ p, motive p → motive (-p)) (p : ℚ) : motive p := by
  rcases le_total 0 p with h | h
  · exact hnonneg p h
  · simpa using hneg (-p) (hnonneg (-p) (by linarith))

theorem abs_rha_neg_sub (p : ℚ) : |(rha (-p) : ℚ) - -p| = |(rha p : ℚ) - p| := by
  rw [rha_neg, Int.cast_neg, ← abs_neg]
  congr 1
  ring

/-- `rha` is a nearest integer (spec/40_common_numerics.md R58). -/
theorem abs_rha_sub_le (p : ℚ) : |(rha p : ℚ) - p| ≤ 1 / 2 := by
  induction p using forall_of_nonneg_of_neg with
  | hnonneg p h =>
    obtain ⟨hlow, hhigh, _⟩ := rha_bounds_of_nonneg h
    exact abs_le.2 ⟨by linarith, by linarith⟩
  | hneg p ih => rwa [abs_rha_neg_sub]

/-- On a tie `rha` takes the integer farther from zero (spec/40_common_numerics.md R58). -/
theorem abs_lt_abs_rha_of_tie (p : ℚ) : |(rha p : ℚ) - p| = 1 / 2 → |p| < |(rha p : ℚ)| := by
  induction p using forall_of_nonneg_of_neg with
  | hnonneg p h =>
    obtain ⟨hlow, _, _⟩ := rha_bounds_of_nonneg h
    intro htie
    have hup : (rha p : ℚ) - p = 1 / 2 := (eq_or_eq_neg_of_abs_eq htie).resolve_right (by linarith)
    rw [abs_of_nonneg h, abs_of_nonneg (by linarith)]
    linarith
  | hneg p ih =>
    intro htie
    rw [abs_rha_neg_sub] at htie
    rw [rha_neg, Int.cast_neg, abs_neg, abs_neg]
    exact ih htie

/-- The only integer nearer than half is `rha`. -/
theorem rha_eq_of_abs_sub_lt {p : ℚ} {c : Int} (h : |p - (c : ℚ)| < 1 / 2) : rha p = c := by
  have hlt : |((rha p - c : Int) : ℚ)| < 1 := by
    calc |((rha p - c : Int) : ℚ)| = |((rha p : ℚ) - p) + (p - c)| := by push_cast; congr 1; ring
      _ ≤ |(rha p : ℚ) - p| + |p - c| := abs_add_le _ _
      _ < 1 := by linarith [abs_rha_sub_le p]
  rw [← Int.cast_abs, ← Int.cast_one, Int.cast_lt, Int.abs_lt_one_iff] at hlt
  omega

theorem rha_mono {p q : ℚ} (h : p ≤ q) : rha p ≤ rha q := by
  rcases le_total 0 p with hp | hp
  · rw [rha_of_nonneg hp, rha_of_nonneg (hp.trans h)]
    exact Int.floor_le_floor (by linarith)
  · have hnegp : rha p = -rha (-p) := by rw [rha_neg, neg_neg]
    rcases le_total 0 q with hq | hq
    · have := (rha_bounds_of_nonneg (neg_nonneg.2 hp)).2.2
      have := (rha_bounds_of_nonneg hq).2.2
      omega
    · have hnegq : rha q = -rha (-q) := by rw [rha_neg, neg_neg]
      rw [hnegp, hnegq, rha_of_nonneg (neg_nonneg.2 hp), rha_of_nonneg (neg_nonneg.2 hq)]
      exact neg_le_neg (Int.floor_le_floor (by linarith))

theorem clampUnit_mono {v w : ℚ} (h : v ≤ w) : clampUnit v ≤ clampUnit w :=
  min_le_min_right _ (max_le_max_right _ h)

/-- Clamping brings nothing farther from a value in [-1, 1]. -/
theorem abs_clampUnit_sub_le {v q : ℚ} (h1 : -1 ≤ q) (h2 : q ≤ 1) : |clampUnit v - q| ≤ |v - q| := by
  rcases le_total v (-1) with hlow | hlow
  · rw [clampUnit_of_le_neg_one hlow, abs_of_nonpos (by linarith), abs_of_nonpos (by linarith)]
    linarith
  · rcases le_total 1 v with hhigh | hhigh
    · rw [clampUnit_of_one_le hhigh, abs_of_nonneg (by linarith), abs_of_nonneg (by linarith)]
      linarith
    · rw [clampUnit_of_mem hlow hhigh]

/-- Settles O40: the answered code is `rha` of the exact product. -/
theorem encodeRoundsHalfAwayFromZero : Obligations.EncodeRoundsHalfAwayFromZero := by
  intro m bits opnd s v hdir hbits hs hv h1 h2
  refine ⟨_, resultOf_encode hdir hbits hs opnd, ?_⟩
  rw [codeOf_encodeCore hbits.2, encodeCode_of_mem hv h1 h2]
  exact ⟨abs_rha_sub_le _, abs_lt_abs_rha_of_tie _⟩

/-! ## Encode is monotone -/

/-- The code is non-decreasing in the order of the floats (spec/40_common_numerics.md R68). -/
theorem encodeCode_mono {f g : FloatVal} (h : floatLe f g) (e : Nat) : encodeCode f e ≤ encodeCode g e := by
  cases f with
  | nan => exact h.elim
  | inf negative =>
    cases negative with
    | true => exact (encodeCode_mem g e).1
    | false =>
      cases g with
      | nan => exact h.elim
      | inf negative =>
        cases negative with
        | true => exact h.elim
        | false => exact le_rfl
      | finite _ _ _ => exact h.elim
  | finite sf mf xf =>
    cases g with
    | nan => exact h.elim
    | inf negative =>
      cases (h : negative = false)
      exact (encodeCode_mem (.finite sf mf xf) e).2
    | finite sg mg xg =>
      rw [encodeCode_of_exactValue rfl, encodeCode_of_exactValue rfl]
      exact rha_mono (mul_le_mul_of_nonneg_right (clampUnit_mono h) (Nat.cast_nonneg _))

/-- Settles O45: the answered code is the code of the operand, which is monotone. -/
theorem encodeIsMonotone : Obligations.EncodeIsMonotone := by
  intro m bits a b s hdir hbits hs hle
  refine ⟨_, _, resultOf_encode hdir hbits hs a, resultOf_encode hdir hbits hs b, ?_⟩
  rw [codeOf_encodeCore hbits.2, codeOf_encodeCore hbits.2]
  exact encodeCode_mono hle _

/-! ## Codes fit their width -/

/-- `s + 1` is the power of two of spec/40_common_numerics.md R55. -/
theorem stepCount_add_one (e : Nat) : stepCount e + 1 = 2 ^ (e - 1) := Nat.sub_add_cancel Nat.one_le_two_pow

theorem setWidth_ofInt32 {e : Nat} (he : e ≤ 32) (c : Int) : (BitVec.ofInt 32 c).setWidth e = BitVec.ofInt e c := by
  have hmod : c % 2 ^ 32 % 2 ^ e = c % 2 ^ e := Int.emod_emod_of_dvd c (pow_dvd_pow 2 he)
  apply BitVec.eq_of_toNat_eq
  rw [BitVec.toNat_setWidth, BitVec.toNat_ofInt, BitVec.toNat_ofInt]
  push_cast
  rw [← hmod, Int.toNat_emod (Int.emod_nonneg c (by decide)) (by positivity)]
  rfl

/-- The low `e` bits of a code of `e` bits are sign-extended on the bus (spec/40_common_numerics.md R62). -/
theorem signExtend_of_code {e : Nat} {c : Int} (he : e ≤ 32) (hpos : 0 < e) (hmin : -2 ^ (e - 1) ≤ c)
    (hmax : c < 2 ^ (e - 1)) :
    ((zext64 (twos32 c)).setWidth e).signExtend 32 = (zext64 (twos32 c)).extractLsb' 0 32 := by
  have hlow : (zext64 (twos32 c)).setWidth e = BitVec.ofInt e c := by
    rw [zext64, BitVec.setWidth_setWidth_of_le _ (by omega), twos32, setWidth_ofInt32 he]
  rw [hlow, zext64, BitVec.extractLsb'_setWidth_of_le (by decide), BitVec.extractLsb'_eq_self, BitVec.signExtend,
    BitVec.toInt_ofInt_eq_self hpos hmin hmax, twos32]

theorem zext64_high (v : BitVec 32) : (zext64 v).extractLsb' 32 32 = 0#32 := by
  ext i hi
  simp [zext64]

/-- Settles O37: the code lies in `[-s, s]`, inside the range of `e` bits. -/
theorem codesFitTheirWidth : Obligations.CodesFitTheirWidth := by
  intro m bits opnd s hdir hbits hs
  obtain ⟨hmin, hmax⟩ := encodeCode_mem (floatOperand m.prec opnd) bits.toNat
  have hpow : (stepCount bits.toNat : Int) + 1 = 2 ^ (bits.toNat - 1) := by
    exact_mod_cast stepCount_add_one bits.toNat
  refine ⟨_, resultOf_encode hdir hbits hs opnd, zext64_high _, ?_⟩
  rw [codeOf_encodeCore hbits.2]
  obtain ⟨hlow, hhigh⟩ := hbits
  exact ⟨hmin, hmax, signExtend_of_code hhigh (by omega) (by omega) (by omega), by omega⟩

/-! ## The sign bit -/

/-- The number of opposite sign. -/
def negateFloat : FloatVal → FloatVal
  | .nan => .nan
  | .inf negative => .inf (!negative)
  | .finite negative m x => .finite (!negative) m x

theorem encodeCode_negate (f : FloatVal) (e : Nat) : encodeCode (negateFloat f) e = -encodeCode f e := by
  cases f with
  | nan => rfl
  | inf negative => cases negative <;> simp [negateFloat, encodeCode]
  | finite negative m x => cases negative <;> simp [negateFloat, encodeCode]

theorem classify_not (P : Precision) (sg : Bool) (E F : Nat) :
    classify P (!sg) E F = negateFloat (classify P sg E F) := by
  unfold classify
  split
  · split <;> rfl
  · split <;> rfl

/-- Flipping the sign bit negates the number (spec/30_encoding.md R46). -/
theorem floatOperand_xor_signBit (P : Precision) (w : Data) :
    floatOperand P (w ^^^ signBit P) = negateFloat (floatOperand P w) := by
  cases P with
  | S =>
    have hsign : lowWord (signBit .S) = 0x80000000#32 := rfl
    rw [floatOperand, floatOperand, lowWord, BitVec.extractLsb'_xor, ← lowWord, ← lowWord, hsign, fval32, fval32,
      ← classify_not, BitVec.extractLsb'_xor, BitVec.extractLsb'_xor, BitVec.getLsbD_xor]
    simp
  | D =>
    rw [floatOperand, floatOperand, fval64, fval64, ← classify_not, signBit, BitVec.extractLsb'_xor,
      BitVec.extractLsb'_xor, BitVec.getLsbD_xor]
    simp

theorem ofBool_not_append (b : Bool) {n : Nat} (x : BitVec n) :
    BitVec.ofBool (!b) ++ x = (BitVec.ofBool b ++ x) ^^^ (BitVec.ofBool true ++ 0#n) := by
  rw [BitVec.xor_append, BitVec.xor_zero]
  cases b <;> rfl

theorem packFloat_not (P : Precision) (sg : Bool) (fields : Nat × Nat) :
    packFloat P (!sg) fields = packFloat P sg fields ^^^ signBit P := by
  cases P with
  | S =>
    rw [packFloat, packFloat, ofBool_not_append, zext64, BitVec.setWidth_xor]
    rfl
  | D =>
    rw [packFloat, packFloat, ofBool_not_append]
    rfl

theorem decodePattern_neg (P : Precision) {c : Int} (hc : c ≠ 0) (s : Nat) :
    decodePattern P (-c) s = decodePattern P c s ^^^ signBit P := by
  have hsign : decide (-c < 0) = !decide (c < 0) := by
    rw [← decide_not, decide_eq_decide]
    omega
  rw [decodePattern, decodePattern, if_neg (by omega), if_neg hc, hsign, Int.natAbs_neg, packFloat_not]

theorem clampCode_ne_zero {c : Int} (hc : c ≠ 0) {s : Nat} (hs : 0 < s) : clampCode c s ≠ 0 := by
  unfold clampCode
  omega

theorem decodeCore_of_zero {a : Data} (h : codeOf a = 0) (P : Precision) (e : Nat) : decodeCore P a e = 0#64 := by
  have hclamp : clampCode (codeOperand a) (stepCount e) = 0 := by
    rw [show codeOperand a = 0 from h, clampCode_of_mem (by omega) (by omega)]
  rw [decodeCore, hclamp, decodePattern, if_pos rfl]

/-- Settles O47: the sign bit goes through both cores. -/
theorem oddSymmetryOfBothDirections : Obligations.OddSymmetryOfBothDirections := by
  intro P sch bits s hbits hs
  refine ⟨fun w _ => ?encode, fun a b _ hne hneg => ?decode, fun a hzero => ?zero⟩
  case encode =>
    refine ⟨_, _, resultOf_encode rfl hbits hs w, resultOf_encode rfl hbits hs _, ?_⟩
    rw [codeOf_encodeCore hbits.2, codeOf_encodeCore hbits.2, floatOperand_xor_signBit, encodeCode_negate]
  case decode =>
    refine ⟨_, resultOf_decode rfl hbits hs a, ?_⟩
    have hclamp := clampCode_ne_zero hne (stepCount_pos hbits.1)
    rw [resultOf_decode rfl hbits hs b, decodeCore, show codeOperand b = -codeOf a from hneg, clampCode_neg,
      decodePattern_neg P hclamp]
    rfl
  case zero => rw [resultOf_decode rfl hbits hs a, decodeCore_of_zero hzero]

/-! ## The fixed points -/

theorem exactValue_onePattern (P : Precision) : exactValue (floatOperand P (onePattern P)) = some 1 := by
  cases P
  · rw [show floatOperand .S (onePattern .S) = .finite false (2 ^ 23) (-23) by decide]
    norm_num [exactValue, finiteValue]
  · rw [show floatOperand .D (onePattern .D) = .finite false (2 ^ 52) (-52) by decide]
    norm_num [exactValue, finiteValue]

theorem minusOnePattern_eq (P : Precision) : minusOnePattern P = onePattern P ^^^ signBit P := by
  cases P <;> rfl

theorem exactValue_zeroPattern (P : Precision) : exactValue (floatOperand P 0#64) = some 0 := by
  cases P
  · rw [show floatOperand .S 0#64 = .finite false 0 (-149) by decide]
    norm_num [exactValue, finiteValue]
  · rw [show floatOperand .D 0#64 = .finite false 0 (-1074) by decide]
    norm_num [exactValue, finiteValue]

theorem encodeCode_zeroPattern (P : Precision) (e : Nat) : encodeCode (floatOperand P 0#64) e = 0 := by
  rw [encodeCode_of_mem (exactValue_zeroPattern P) (by norm_num) (by norm_num), zero_mul]
  exact rha_natCast 0

/-- Settles O44: +1.0 saturates, the code of zero is 0, and -1.0 and -0.0 have the sign bit flipped; in the other direction
the ends are those of O41. -/
theorem fixedPointsAtExtremesAndZero : Obligations.FixedPointsAtExtremesAndZero := by
  intro P sch bits s hbits hs plus minus enc dec
  have hs31 := stepCount_le hbits.2
  have henc (opnd : Data) : enc opnd = some ⟨encodeCore P opnd bits.toNat, 0#1⟩ := resultOf_encode rfl hbits hs opnd
  have hone : encodeCode (floatOperand P (onePattern P)) bits.toNat = stepCount bits.toNat :=
    encodeCode_of_one_le (exactValue_onePattern P) le_rfl _
  have hzero := encodeCode_zeroPattern P bits.toNat
  have hminusZero : signBit P = 0#64 ^^^ signBit P := (BitVec.zero_xor).symm
  have hplus : codeOf plus = stepCount bits.toNat := codeOf_zext64_twos32 (by omega) (by omega)
  have hminus : codeOf minus = -(stepCount bits.toNat : Int) := codeOf_zext64_twos32 (by omega) (by omega)
  have hdec (opnd : Data) := decodeSaturatesAtStepCount ⟨P, sch, .decode⟩ bits opnd s rfl hbits hs
  refine ⟨?one, ?minusOne, ?zero, ?minusZero, (hdec plus).1 hplus.ge, (hdec minus).2.1 hminus.le, ?decodeZero⟩
  case one => rw [henc, encodeCore, hone]
  case minusOne => rw [henc, encodeCore, minusOnePattern_eq, floatOperand_xor_signBit, encodeCode_negate, hone]
  case zero => rw [henc, encodeCore, hzero]; rfl
  case minusZero =>
    rw [henc, encodeCore, hminusZero, floatOperand_xor_signBit, encodeCode_negate, hzero]
    rfl
  case decodeZero => exact (oddSymmetryOfBothDirections P sch bits s hbits hs).2.2 0#64 rfl

end Sys2Proof.Machine

/-! PROOFS. The floats of a format as numbers (spec/30_encoding.md R46, spec/40_common_numerics.md R56): their place on the
grids of the powers of two, when a multiple of such a power is a nearest float, and the patterns that hold it. -/

namespace Sys2Proof.Machine

/-! ## Multiples of a step near a number -/

/-- Two different multiples of `u` are at least `u` apart. -/
theorem step_le_abs_add_abs {u q : ℚ} {M k : Int} (hu : 0 ≤ u) (hne : k ≠ M) :
    u ≤ |(k : ℚ) * u - q| + |(M : ℚ) * u - q| := by
  have hone : (1 : ℚ) ≤ |((k - M : Int) : ℚ)| := by
    rw [← Int.cast_abs]
    exact_mod_cast Int.one_le_abs (sub_ne_zero.2 hne)
  have hdist : (k : ℚ) * u - M * u = ((k - M : Int) : ℚ) * u := by push_cast; ring
  calc u ≤ |((k - M : Int) : ℚ)| * u := le_mul_of_one_le_left hu hone
    _ = |(k : ℚ) * u - M * u| := by rw [hdist, abs_mul, abs_of_nonneg hu]
    _ ≤ |(k : ℚ) * u - q| + |q - M * u| := abs_sub_le _ _ _
    _ = |(k : ℚ) * u - q| + |(M : ℚ) * u - q| := by rw [abs_sub_comm q]

/-- A multiple of `u` within half of `u` is a nearest one. -/
theorem abs_sub_le_of_le_half {u q : ℚ} {M : Int} (hu : 0 ≤ u) (hM : |(M : ℚ) * u - q| ≤ u / 2) (k : Int) :
    |(M : ℚ) * u - q| ≤ |(k : ℚ) * u - q| := by
  rcases eq_or_ne k M with rfl | hne
  · exact le_rfl
  · linarith [step_le_abs_add_abs (q := q) hu hne]

/-- How far the significand `M` in units of `u` is from the quotient `N / s` in these units. -/
theorem abs_significand_sub {M N s : Nat} {u : ℚ} (hu : 0 < u) (hs : 0 < s) :
    |((M : Int) : ℚ) * u - (N : ℚ) / s * u| = |((M : Int) : ℚ) * s - N| * u / s := by
  have hsq : (0 : ℚ) < s := by exact_mod_cast hs
  have hscale : ((M : Int) : ℚ) * u - (N : ℚ) / s * u = (((M : Int) : ℚ) * s - N) * (u / s) := by field_simp
  rw [hscale, abs_mul, abs_of_pos (div_pos hu hsq), mul_div_assoc]

theorem abs_significand_sub_lt {M N s : Nat} {u : ℚ} (hu : 0 < u) (hs : 0 < s) (hM : 2 * |(M : Int) * s - N| < s) :
    |((M : Int) : ℚ) * u - (N : ℚ) / s * u| < u / 2 := by
  have hM' : (2 : ℚ) * |((M : Int) : ℚ) * s - N| < s := by exact_mod_cast hM
  rw [abs_significand_sub hu hs, div_lt_div_iff₀ (by exact_mod_cast hs) two_pos]
  nlinarith

theorem abs_significand_sub_le {M N s : Nat} {u : ℚ} (hu : 0 < u) (hs : 0 < s) (hM : 2 * |(M : Int) * s - N| ≤ s) :
    |((M : Int) : ℚ) * u - (N : ℚ) / s * u| ≤ u / 2 := by
  have hM' : (2 : ℚ) * |((M : Int) : ℚ) * s - N| ≤ s := by exact_mod_cast hM
  rw [abs_significand_sub hu hs, div_le_div_iff₀ (by exact_mod_cast hs) two_pos]
  nlinarith

/-! ## The numbers of a format -/

/-- The numbers of a format, with no bound at the top: significands of `fw + 1` bits at exponents from that of the
subnormals up (spec/40_common_numerics.md R56). -/
def FloatNumber (P : Precision) (v : ℚ) : Prop :=
  ∃ negative m x, m < 2 ^ (fracWidth P + 1) ∧ 1 - (bias P : Int) - fracWidth P ≤ x ∧ v = finiteValue negative m x

theorem FloatNumber.neg {P : Precision} {v : ℚ} (h : FloatNumber P v) : FloatNumber P (-v) := by
  obtain ⟨negative, m, x, hm, hx, rfl⟩ := h
  refine ⟨!negative, m, x, hm, hx, ?_⟩
  cases negative <;> simp [finiteValue]

/-- The fields of a pattern (spec/30_encoding.md R46). -/
theorem exists_floatOperand_eq_classify (P : Precision) (d : Data) :
    ∃ sg E F, F < 2 ^ fracWidth P ∧ floatOperand P d = classify P sg E F := by
  cases P with
  | S => exact ⟨_, _, _, BitVec.isLt _, rfl⟩
  | D => exact ⟨_, _, _, BitVec.isLt _, rfl⟩

/-- Every pattern that denotes a number denotes one of its format (spec/40_common_numerics.md R56). -/
theorem floatNumber_of_busValue {P : Precision} {d : Data} {v : ℚ} (h : busValue P d = some v) : FloatNumber P v := by
  obtain ⟨sg, E, F, hF, hfields⟩ := exists_floatOperand_eq_classify P d
  rw [busValue, hfields, classify] at h
  have htwo : 2 ^ (fracWidth P + 1) = 2 ^ fracWidth P + 2 ^ fracWidth P := by ring
  split at h
  · split at h <;> cases h
  · split at h
    · exact ⟨sg, F, _, by omega, le_rfl, (Option.some.inj h).symm⟩
    · exact ⟨sg, 2 ^ fracWidth P + F, _, by omega, by omega, (Option.some.inj h).symm⟩

theorem abs_finiteValue (negative : Bool) (m : Nat) (x : Int) : |finiteValue negative m x| = (m : ℚ) * 2 ^ x := by
  have hnonneg : (0 : ℚ) ≤ (m : ℚ) * 2 ^ x := by positivity
  cases negative
  · rw [finiteValue_false, abs_of_nonneg hnonneg]
  · rw [finiteValue_true, abs_neg, finiteValue_false, abs_of_nonneg hnonneg]

/-- A number of a format is a multiple of `2^x` or too small to have the exponent of `2^fw * 2^x`. -/
theorem FloatNumber.multiple_or_small {P : Precision} {v : ℚ} (h : FloatNumber P v) (x : Int) :
    (∃ k : Int, v = k * 2 ^ x) ∨ (1 - (bias P : Int) - fracWidth P < x ∧ |v| < 2 ^ fracWidth P * 2 ^ x) := by
  obtain ⟨negative, m, y, hm, hy, rfl⟩ := h
  rcases le_or_gt x y with hxy | hxy
  · refine .inl ⟨(if negative then -1 else 1) * m * 2 ^ (y - x).toNat, ?_⟩
    have hsplit : (2 : ℚ) ^ y = 2 ^ (y - x).toNat * 2 ^ x := by
      rw [← zpow_natCast, Int.toNat_of_nonneg (by omega), ← zpow_add₀ two_ne_zero, sub_add_cancel]
    rw [finiteValue, hsplit]
    push_cast
    ring
  · refine .inr ⟨by omega, ?_⟩
    have hm' : (m : ℚ) < 2 ^ (fracWidth P + 1) := by exact_mod_cast hm
    calc |finiteValue negative m y| = (m : ℚ) * 2 ^ y := abs_finiteValue negative m y
      _ < 2 ^ (fracWidth P + 1) * 2 ^ y := mul_lt_mul_of_pos_right hm' (by positivity)
      _ ≤ 2 ^ (fracWidth P + 1) * 2 ^ (x - 1) :=
        mul_le_mul_of_nonneg_left (zpow_le_zpow_right₀ one_le_two (by omega)) (by positivity)
      _ = 2 ^ fracWidth P * 2 ^ x := by rw [zpow_sub_one₀ two_ne_zero, pow_succ]; ring

/-! ## Nearest floats -/

section
variable {P : Precision} {q v : ℚ} {x M : Int}

/-- A float below the exponent of `q` is farther from it than the multiple of `2^x` that `q` rounds to. -/
theorem abs_sub_lt_of_small (hM : |(M : ℚ) * 2 ^ x - q| ≤ 2 ^ x / 2) (hq : 2 ^ fracWidth P * 2 ^ x ≤ q)
    (hv : |v| < 2 ^ fracWidth P * 2 ^ x) : |(M : ℚ) * 2 ^ x - q| < |v - q| := by
  calc |(M : ℚ) * 2 ^ x - q|
      ≤ |((2 ^ fracWidth P : Int) : ℚ) * 2 ^ x - q| := abs_sub_le_of_le_half (by positivity) hM _
    _ = q - 2 ^ fracWidth P * 2 ^ x := by
      push_cast
      rw [abs_sub_comm, abs_of_nonneg (by linarith)]
    _ < q - v := by linarith [le_abs_self v]
    _ ≤ |v - q| := by rw [abs_sub_comm]; exact le_abs_self _

/-- A number that is at least `2^fw * 2^x`, or any number where `x` is the exponent of the subnormals, has no float nearer to
it than a multiple of `2^x` within half of `2^x`. -/
theorem abs_sub_le_of_floatNumber (hM : |(M : ℚ) * 2 ^ x - q| ≤ 2 ^ x / 2)
    (hq : 1 - (bias P : Int) - fracWidth P < x → 2 ^ fracWidth P * 2 ^ x ≤ q) (hv : FloatNumber P v) :
    |(M : ℚ) * 2 ^ x - q| ≤ |v - q| := by
  rcases hv.multiple_or_small x with ⟨k, rfl⟩ | ⟨hx, hsmall⟩
  · exact abs_sub_le_of_le_half (by positivity) hM k
  · exact (abs_sub_lt_of_small hM (hq hx) hsmall).le

/-- Away from a tie the nearest float is the only one. -/
theorem eq_of_floatNumber_of_abs_sub_le (hM : |(M : ℚ) * 2 ^ x - q| < 2 ^ x / 2)
    (hq : 2 ^ fracWidth P * 2 ^ x ≤ q) (hv : FloatNumber P v) (hle : |v - q| ≤ |(M : ℚ) * 2 ^ x - q|) :
    v = M * 2 ^ x := by
  rcases hv.multiple_or_small x with ⟨k, rfl⟩ | ⟨_, hsmall⟩
  · by_contra hne
    have hstep := step_le_abs_add_abs (u := (2 : ℚ) ^ x) (q := q) (M := M) (k := k) (by positivity)
      (fun h => hne (by rw [h]))
    linarith
  · exact absurd (abs_sub_lt_of_small hM.le hq hsmall) (not_lt.2 hle)

end

/-! ## The pattern of a significand -/

/-- The three fields of a float pattern of any format are read back (spec/30_encoding.md R46). -/
theorem fields_of_append {m n : Nat} (sg : Bool) {E F : Nat} (hE : E < 2 ^ m) (hF : F < 2 ^ n) :
    (BitVec.ofBool sg ++ (BitVec.ofNat m E ++ BitVec.ofNat n F)).getLsbD (m + n) = sg ∧
    ((BitVec.ofBool sg ++ (BitVec.ofNat m E ++ BitVec.ofNat n F)).extractLsb' n m).toNat = E ∧
    ((BitVec.ofBool sg ++ (BitVec.ofNat m E ++ BitVec.ofNat n F)).extractLsb' 0 n).toNat = F := by
  have hexponent : (BitVec.ofBool sg ++ (BitVec.ofNat m E ++ BitVec.ofNat n F)).extractLsb' n m = BitVec.ofNat m E := by
    ext i hi
    have hin : n + i < m + n := by omega
    simp [BitVec.getLsbD_append, BitVec.getElem_append, hin]
  have hfraction : (BitVec.ofBool sg ++ (BitVec.ofNat m E ++ BitVec.ofNat n F)).extractLsb' 0 n = BitVec.ofNat n F := by
    ext i hi
    have hin : ¬ m + n ≤ i := by omega
    simp [BitVec.getLsbD_append, hi, hin]
  refine ⟨by simp [BitVec.getElem_append], ?_, ?_⟩
  · rw [hexponent, BitVec.toNat_ofNat, Nat.mod_eq_of_lt hE]
  · rw [hfraction, BitVec.toNat_ofNat, Nat.mod_eq_of_lt hF]

/-- A float pattern on the result bus is classified by its fields (spec/40_common_numerics.md R56). -/
theorem floatOperand_packFloat (P : Precision) (sg : Bool) {E F : Nat} (hE : E ≤ expMax P) (hF : F < 2 ^ fracWidth P) :
    floatOperand P (packFloat P sg (E, F)) = classify P sg E F := by
  cases P with
  | S =>
    have hword : lowWord (packFloat .S sg (E, F)) = BitVec.ofBool sg ++ (BitVec.ofNat 8 E ++ BitVec.ofNat 23 F) := by
      rw [lowWord, packFloat, zext64, BitVec.extractLsb'_setWidth_of_le (by decide), BitVec.extractLsb'_eq_self]
    obtain ⟨hsign, hexponent, hfraction⟩ := fields_of_append (m := 8) sg (Nat.lt_succ_of_le hE) hF
    rw [floatOperand, hword]
    exact congr (congrArg₂ (classify .S) hsign hexponent) hfraction
  | D =>
    obtain ⟨hsign, hexponent, hfraction⟩ := fields_of_append (m := 11) sg (Nat.lt_succ_of_le hE) hF
    exact congr (congrArg₂ (classify .D) hsign hexponent) hfraction

theorem classify_of_normal {P : Precision} {E : Nat} (sg : Bool) (h0 : E ≠ 0) (hE : E ≠ expMax P) (F : Nat) :
    classify P sg E F = .finite sg (2 ^ fracWidth P + F) ((E : Int) - bias P - fracWidth P) := by
  rw [classify, if_neg hE, if_neg h0]

theorem classify_of_subnormal (P : Precision) (sg : Bool) (F : Nat) :
    classify P sg 0 F = .finite sg F (1 - (bias P : Int) - fracWidth P) := by
  rw [classify, if_neg (by cases P <;> decide), if_pos rfl]

/-- The fields of the magnitude `k * 2^fw + M`, for a significand `M` of `fw + 1` bits or one more that carries. -/
theorem magnitude_fields {fw k M : Nat} (hlow : 2 ^ fw ≤ M) (hhigh : M ≤ 2 ^ (fw + 1)) :
    ((k * 2 ^ fw + M) / 2 ^ fw, (k * 2 ^ fw + M) % 2 ^ fw) =
      if M = 2 ^ (fw + 1) then (k + 2, 0) else (k + 1, M - 2 ^ fw) := by
  have hpos : 0 < 2 ^ fw := by positivity
  have htwo : 2 ^ (fw + 1) = 2 ^ fw * 2 := pow_succ 2 fw
  rw [Nat.add_comm, Nat.add_mul_div_right _ _ hpos, Nat.add_mul_mod_self_right]
  split
  · next h => rw [h, htwo, Nat.mul_div_cancel_left _ hpos, Nat.mul_mod_right, Nat.add_comm]
  · obtain ⟨F, rfl⟩ := Nat.exists_eq_add_of_le hlow
    have hF : F < 2 ^ fw := by omega
    rw [Nat.add_div_left _ hpos, Nat.add_mod_left, Nat.div_eq_of_lt hF, Nat.mod_eq_of_lt hF, Nat.add_sub_cancel_left,
      Nat.add_comm k 1]

section
variable {P : Precision} {k M : Nat}

/-- The value of the fields of the magnitude `k * 2^fw + M`: the significand `M` at the `k`-th exponent, also where it
carries into the next one (spec/40_common_numerics.md R56). -/
theorem exactValue_classify_magnitude (negative : Bool) (hM : M ≤ 2 ^ (fracWidth P + 1))
    (hlow : k = 0 ∨ 2 ^ fracWidth P ≤ M) (hfinite : k * 2 ^ fracWidth P + M < expMax P * 2 ^ fracWidth P) :
    exactValue (classify P negative ((k * 2 ^ fracWidth P + M) / 2 ^ fracWidth P)
        ((k * 2 ^ fracWidth P + M) % 2 ^ fracWidth P)) =
      some (finiteValue negative M ((k : Int) + 1 - bias P - fracWidth P)) := by
  have hmax : (k * 2 ^ fracWidth P + M) / 2 ^ fracWidth P < expMax P :=
    (Nat.div_lt_iff_lt_mul (by positivity)).2 hfinite
  rcases lt_or_ge M (2 ^ fracWidth P) with hsmall | hlarge
  · obtain rfl := hlow.resolve_right (by omega)
    rw [Nat.zero_mul, Nat.zero_add, Nat.div_eq_of_lt hsmall, Nat.mod_eq_of_lt hsmall, classify_of_subnormal,
      Nat.cast_zero, zero_add]
    rfl
  · have hfields := magnitude_fields (k := k) hlarge hM
    split at hfields
    · next hcarry =>
      obtain ⟨hE, hF⟩ := Prod.mk.inj hfields
      rw [hE] at hmax ⊢
      rw [hF, classify_of_normal _ (by omega) hmax.ne, hcarry]
      have hx : ((k + 2 : Nat) : Int) - bias P - fracWidth P = ((k : Int) + 1 - bias P - fracWidth P) + 1 := by
        push_cast
        ring
      simp only [exactValue, finiteValue, Option.some.injEq, hx, zpow_add_one₀ (two_ne_zero' ℚ)]
      push_cast
      ring
    · obtain ⟨hE, hF⟩ := Prod.mk.inj hfields
      rw [hE] at hmax ⊢
      rw [hF, classify_of_normal _ (by omega) hmax.ne, Nat.add_sub_cancel' hlarge]
      push_cast
      rfl

/-- The value of the pattern of the magnitude `k * 2^fw + M`. -/
theorem busValue_packFloat_magnitude (negative : Bool) (hM : M ≤ 2 ^ (fracWidth P + 1))
    (hlow : k = 0 ∨ 2 ^ fracWidth P ≤ M) (hfinite : k * 2 ^ fracWidth P + M < expMax P * 2 ^ fracWidth P) :
    busValue P (packFloat P negative ((k * 2 ^ fracWidth P + M) / 2 ^ fracWidth P,
        (k * 2 ^ fracWidth P + M) % 2 ^ fracWidth P)) =
      some (finiteValue negative M ((k : Int) + 1 - bias P - fracWidth P)) := by
  have hmax : (k * 2 ^ fracWidth P + M) / 2 ^ fracWidth P < expMax P :=
    (Nat.div_lt_iff_lt_mul (by positivity)).2 hfinite
  rw [busValue, floatOperand_packFloat P negative hmax.le (Nat.mod_lt _ (by positivity)),
    exactValue_classify_magnitude negative hM hlow hfinite]

end

/-! ## The numbers 0, 1 and those of opposite sign -/

theorem exactValue_negateFloat (f : FloatVal) : exactValue (negateFloat f) = (exactValue f).map Neg.neg := by
  cases f with
  | nan => rfl
  | inf negative => rfl
  | finite negative m x => cases negative <;> simp [negateFloat, exactValue, finiteValue]

theorem busValue_xor_signBit {P : Precision} {d : Data} {v : ℚ} (h : busValue P d = some v) :
    busValue P (d ^^^ signBit P) = some (-v) := by
  rw [busValue, floatOperand_xor_signBit, exactValue_negateFloat, ← busValue, h, Option.map_some]

theorem floatNumber_zero (P : Precision) : FloatNumber P 0 := floatNumber_of_busValue (exactValue_zeroPattern P)

theorem floatNumber_one (P : Precision) : FloatNumber P 1 := floatNumber_of_busValue (exactValue_onePattern P)

end Sys2Proof.Machine

/-! PROOFS. Decode (spec/40_common_numerics.md R63 to R72): the decoded float is the one nearest to the quotient of the
clamped code, and what follows for monotonicity, for both round trips and for the codes just below `s`. -/

namespace Sys2Proof.Machine

/-! ## The rounded significand -/

/-- Over an odd divisor there is no tie, so the rounded quotient is nearer than half. -/
theorem roundQuotient_spec (N : Nat) {s : Nat} (hodd : s % 2 = 1) :
    2 * |(roundQuotient (N / s) (N % s) s : Int) * s - N| < s := by
  have hrem : N % s < s := Nat.mod_lt N (by omega)
  have hdiv : (N : Int) = (N / s : Nat) * s + (N % s : Nat) := by exact_mod_cast (Nat.div_add_mod' N s).symm
  generalize N / s = a, N % s = r at hrem hdiv ⊢
  unfold roundQuotient
  split
  · have hdist : ((a + 1 : Nat) : Int) * s - N = s - r := by rw [hdiv]; push_cast; ring
    rw [hdist, abs_of_nonneg (by omega)]
    omega
  · have hdist : (a : Int) * s - N = -r := by rw [hdiv]; ring
    rw [hdist, abs_neg, abs_of_nonneg (by omega)]
    omega

/-- The only integer within half of a quotient by an odd number is the rounded one. -/
theorem roundQuotient_eq {N s M : Nat} (hodd : s % 2 = 1) (hM : 2 * |(M : Int) * s - N| < s) :
    roundQuotient (N / s) (N % s) s = M := by
  have hround := roundQuotient_spec N hodd
  generalize roundQuotient (N / s) (N % s) s = R at hround ⊢
  have hlt : |(R : Int) - M| * s < 1 * s := by
    have hscale : ((R : Int) * s - N) - (M * s - N) = (R - M) * s := by ring
    calc |(R : Int) - M| * s = |((R : Int) * s - N) - (M * s - N)| := by
          rw [hscale, abs_mul, abs_of_nonneg (Int.natCast_nonneg s)]
      _ ≤ |(R : Int) * s - N| + |(M : Int) * s - N| := abs_sub _ _
      _ < 1 * s := by omega
  have hzero := Int.abs_lt_one_iff.1 (lt_of_mul_lt_mul_right hlt (Int.natCast_nonneg s))
  omega

theorem le_roundQuotient (M rem s : Nat) : M ≤ roundQuotient M rem s := by
  unfold roundQuotient
  split <;> omega

theorem roundQuotient_le (M rem s : Nat) : roundQuotient M rem s ≤ M + 1 := by
  unfold roundQuotient
  split <;> omega

/-- The significand of a normalised quotient has `fw + 1` bits, or carries (spec/40_common_numerics.md R64). -/
theorem significand_mem {n s j fw : Nat} (hlow : s ≤ n * 2 ^ j) (hhigh : n * 2 ^ j < 2 * s) (rem : Nat) :
    2 ^ fw ≤ roundQuotient (n * 2 ^ (fw + j) / s) rem s ∧
      roundQuotient (n * 2 ^ (fw + j) / s) rem s ≤ 2 ^ (fw + 1) := by
  have hs : 0 < s := by omega
  have hN : n * 2 ^ (fw + j) = n * 2 ^ j * 2 ^ fw := by rw [pow_add]; ring
  have hquotient : 2 ^ fw ≤ n * 2 ^ (fw + j) / s := by
    rw [Nat.le_div_iff_mul_le hs, hN, mul_comm]
    exact Nat.mul_le_mul_right _ hlow
  have hquotient' : n * 2 ^ (fw + j) / s < 2 ^ (fw + 1) := by
    rw [Nat.div_lt_iff_lt_mul hs, hN]
    calc n * 2 ^ j * 2 ^ fw < 2 * s * 2 ^ fw := Nat.mul_lt_mul_of_pos_right hhigh (by positivity)
      _ = 2 ^ (fw + 1) * s := by ring
  exact ⟨hquotient.trans (le_roundQuotient _ _ _), (roundQuotient_le _ _ _).trans hquotient'⟩

/-- The fields of a rounded quotient are those of a magnitude (spec/40_common_numerics.md R64). -/
theorem rneFields_eq_magnitude {P : Precision} {n s j M : Nat} (hj : normalShift n s 31 = j) (hjle : j ≤ 31)
    (hM : roundQuotient (n * 2 ^ (fracWidth P + j) / s) (n * 2 ^ (fracWidth P + j) % s) s = M)
    (hlow : 2 ^ fracWidth P ≤ M) (hhigh : M ≤ 2 ^ (fracWidth P + 1)) :
    rneFields P n s = (((bias P - j - 1) * 2 ^ fracWidth P + M) / 2 ^ fracWidth P,
      ((bias P - j - 1) * 2 ^ fracWidth P + M) % 2 ^ fracWidth P) := by
  have hbias : 127 ≤ bias P := by cases P <;> decide
  have hcarry : bias P - j - 1 + 2 = bias P - j + 1 := by omega
  have hplain : bias P - j - 1 + 1 = bias P - j := by omega
  rw [magnitude_fields hlow hhigh, hcarry, hplain]
  simp only [rneFields, hj, hM]

/-! ## The decoded value -/

/-- What a decode answers for the clamped code `c` over `s`: the one float nearest to the quotient, within half a unit in
its last place, and exact only at 0, `s` and `-s` (spec/40_common_numerics.md R64, R66). -/
structure IsDecodedValue (P : Precision) (c : Int) (s : Nat) (v : ℚ) : Prop where
  unique : ∀ v', FloatNumber P v' → |v' - (c : ℚ) / s| ≤ |v - (c : ℚ) / s| → v' = v
  relative : |v - (c : ℚ) / s| ≤ |(c : ℚ) / s| / 2 ^ (fracWidth P + 1)
  exact : v = (c : ℚ) / s → c = 0 ∨ c = s ∨ c = -s

namespace IsDecodedValue
variable {P : Precision} {c d : Int} {s : Nat} {v w : ℚ}

theorem nearest (h : IsDecodedValue P c s v) {v' : ℚ} (hv' : FloatNumber P v') :
    |v - (c : ℚ) / s| ≤ |v' - (c : ℚ) / s| := by
  rcases le_total |v' - (c : ℚ) / s| |v - (c : ℚ) / s| with hle | hle
  · rw [h.unique v' hv' hle]
  · exact hle

theorem neg (h : IsDecodedValue P c s v) : IsDecodedValue P (-c) s (-v) := by
  have hq : ((-c : Int) : ℚ) / s = -((c : ℚ) / s) := by push_cast; ring
  have hflip (w : ℚ) : |w - -((c : ℚ) / s)| = |-w - (c : ℚ) / s| := by
    rw [← abs_neg]
    congr 1
    ring
  constructor
  · intro v' hv' hle
    rw [hq, hflip, hflip, neg_neg] at hle
    rw [← h.unique (-v') hv'.neg hle, neg_neg]
  · rw [hq, hflip, neg_neg, abs_neg]
    exact h.relative
  · intro heq
    rw [hq, neg_inj] at heq
    have := h.exact heq
    omega

theorem zero (P : Precision) (s : Nat) : IsDecodedValue P 0 s 0 := by
  refine ⟨fun v' _ hle => ?_, ?_, fun _ => .inl rfl⟩
  · simpa using hle
  · simp

/-- A quotient that is a float decodes to itself. -/
theorem eq_of_floatNumber (h : IsDecodedValue P c s v) (hq : FloatNumber P ((c : ℚ) / s)) : v = (c : ℚ) / s :=
  (h.unique _ hq (by simp)).symm

/-- The decode is exact at the three codes (spec/40_common_numerics.md R66). -/
theorem eq_div_iff (h : IsDecodedValue P c s v) (hs : 0 < s) : v = (c : ℚ) / s ↔ c = 0 ∨ c = s ∨ c = -s := by
  have hne : (s : ℚ) ≠ 0 := by exact_mod_cast hs.ne'
  refine ⟨h.exact, fun hc => h.eq_of_floatNumber ?_⟩
  rcases hc with rfl | rfl | rfl
  · simpa using floatNumber_zero P
  · simpa [hne] using floatNumber_one P
  · simpa [neg_div, hne] using (floatNumber_one P).neg

/-- Of two floats the nearer one to the lower number is not the greater, or each is as near. -/
theorem mono (hv : IsDecodedValue P c s v) (hw : IsDecodedValue P d s w) (hvf : FloatNumber P v) (hwf : FloatNumber P w)
    (hcd : c ≤ d) : v ≤ w := by
  by_contra hlt
  rw [not_le] at hlt
  have hq : (c : ℚ) / s ≤ (d : ℚ) / s := div_le_div_of_nonneg_right (by exact_mod_cast hcd) (Nat.cast_nonneg s)
  have hv' : |v - (c : ℚ) / s| < |w - (c : ℚ) / s| := lt_of_not_ge fun hle => hlt.ne (hv.unique w hwf hle)
  have hw' : |w - (d : ℚ) / s| < |v - (d : ℚ) / s| := lt_of_not_ge fun hle => hlt.ne' (hw.unique v hvf hle)
  rw [← sq_lt_sq] at hv' hw'
  nlinarith

end IsDecodedValue

/-- A quotient by an odd number is a multiple of a power of two only where it is 1. -/
theorem eq_of_significand_exact {M n s k : Nat} (hn : 0 < n) (hns : n ≤ s) (hodd : s % 2 = 1)
    (h : M * s = n * 2 ^ k) : n = s := by
  have hcoprime : Nat.Coprime s (2 ^ k) := (Nat.coprime_two_right.2 (Nat.odd_iff.2 hodd)).pow_right k
  have hdvd : s ∣ n := hcoprime.dvd_of_dvd_mul_right ⟨M, by rw [← h, mul_comm]⟩
  exact le_antisymm hns (Nat.le_of_dvd hn hdvd)

/-- The value of a rounded significand is the decoded value of its quotient. -/
theorem isDecodedValue_of_significand {P : Precision} {n s M j : Nat} (hn : 0 < n) (hns : n ≤ s)
    (hodd : s % 2 = 1) (hlow : s ≤ n * 2 ^ j) (hM : 2 * |(M : Int) * s - (n * 2 ^ (fracWidth P + j) : Nat)| < s) :
    IsDecodedValue P n s (finiteValue false M (-((fracWidth P + j : Nat) : Int))) := by
  have hs : 0 < s := by omega
  have hspos : (0 : ℚ) < s := by exact_mod_cast hs
  have hquotient : (((n : Int) : ℚ)) / s =
      ((n * 2 ^ (fracWidth P + j) : Nat) : ℚ) / s * 2 ^ (-((fracWidth P + j : Nat) : Int)) := by
    rw [zpow_neg, zpow_natCast]
    push_cast
    field_simp
  have hunit : (2 : ℚ) ^ fracWidth P * 2 ^ (-((fracWidth P + j : Nat) : Int)) = 1 / 2 ^ j := by
    rw [zpow_neg, zpow_natCast, pow_add]
    field_simp
  have hq : (2 : ℚ) ^ fracWidth P * 2 ^ (-((fracWidth P + j : Nat) : Int)) ≤ ((n : Int) : ℚ) / s := by
    rw [hunit, div_le_div_iff₀ (by positivity) hspos, one_mul]
    exact_mod_cast hlow
  have hupos : (0 : ℚ) < 2 ^ (-((fracWidth P + j : Nat) : Int)) := by positivity
  have hhalf := abs_significand_sub_lt hupos hs hM
  rw [← hquotient] at hhalf
  rw [finiteValue_false, ← Int.cast_natCast M]
  refine ⟨fun v' hv' hle => eq_of_floatNumber_of_abs_sub_le hhalf hq hv' hle, ?relative, fun heq => ?exact⟩
  case relative =>
    rw [abs_of_nonneg (by positivity : (0 : ℚ) ≤ ((n : Int) : ℚ) / s), le_div_iff₀ (by positivity), pow_succ]
    have hpow : (0 : ℚ) < 2 ^ fracWidth P := by positivity
    nlinarith
  case exact =>
    have hproduct : M * s = n * 2 ^ (fracWidth P + j) := by
      rw [hquotient, mul_left_inj' hupos.ne', eq_div_iff hspos.ne'] at heq
      exact_mod_cast heq
    exact .inr (.inl (by exact_mod_cast eq_of_significand_exact hn hns hodd hproduct))

/-! ## The pattern of a decode -/

/-- The pattern of a positive code is the float of its rounded significand (spec/40_common_numerics.md R64, R65). -/
theorem exists_decodedValue_of_pos (P : Precision) {n s : Nat} (hn : 0 < n) (hns : n ≤ s) (hodd : s % 2 = 1)
    (hs : s ≤ 2 ^ 31) : ∃ v, busValue P (decodePattern P n s) = some v ∧ IsDecodedValue P n s v := by
  obtain ⟨hlow, hjle, _⟩ := normalShift_spec 31 n s (by omega)
  have hhigh := normalShift_lt_double hn hns (fuel := 31) (by omega)
  generalize hj : normalShift n s 31 = j at hlow hjle hhigh
  obtain ⟨hMlow, hMhigh⟩ := significand_mem (fw := fracWidth P) hlow hhigh (n * 2 ^ (fracWidth P + j) % s)
  have hround := roundQuotient_spec (n * 2 ^ (fracWidth P + j)) hodd
  generalize hM : roundQuotient (n * 2 ^ (fracWidth P + j) / s) (n * 2 ^ (fracWidth P + j) % s) s = M
    at hMlow hMhigh hround
  refine ⟨_, ?_, isDecodedValue_of_significand hn hns hodd hlow hround⟩
  have hexponent : ((bias P - j - 1 : Nat) : Int) + 1 - bias P - fracWidth P = -((fracWidth P + j : Nat) : Int) := by
    have : 127 ≤ bias P := by cases P <;> decide
    omega
  have hfinite : (bias P - j - 1) * 2 ^ fracWidth P + M < expMax P * 2 ^ fracWidth P := by
    have hmax : bias P - j - 1 + 3 ≤ expMax P := by
      have : bias P + 2 ≤ expMax P := by cases P <;> decide
      omega
    calc (bias P - j - 1) * 2 ^ fracWidth P + M
        ≤ (bias P - j - 1) * 2 ^ fracWidth P + 2 ^ (fracWidth P + 1) := Nat.add_le_add_left hMhigh _
      _ < (bias P - j - 1 + 3) * 2 ^ fracWidth P := by
        have : 0 < 2 ^ fracWidth P := by positivity
        rw [pow_succ]
        linarith
      _ ≤ expMax P * 2 ^ fracWidth P := Nat.mul_le_mul_right _ hmax
  rw [decodePattern, if_neg (by omega), decide_eq_false (by omega), Int.natAbs_natCast,
    rneFields_eq_magnitude hj hjle hM hMlow hMhigh, busValue_packFloat_magnitude false hMhigh (.inr hMlow) hfinite,
    hexponent]

/-- The pattern of a clamped code denotes its decoded value. -/
theorem exists_decodedValue (P : Precision) {c : Int} {s : Nat} (hmin : -(s : Int) ≤ c) (hmax : c ≤ s)
    (hodd : s % 2 = 1) (hs : s ≤ 2 ^ 31) :
    ∃ v, busValue P (decodePattern P c s) = some v ∧ IsDecodedValue P c s v := by
  rcases lt_trichotomy c 0 with hneg | rfl | hpos
  · obtain ⟨n, rfl⟩ : ∃ n : Nat, c = -(n : Int) := ⟨c.natAbs, by omega⟩
    obtain ⟨v, hv, hdecoded⟩ := exists_decodedValue_of_pos P (n := n) (by omega) (by omega) hodd hs
    exact ⟨-v, by rw [decodePattern_neg P (by omega), busValue_xor_signBit hv], hdecoded.neg⟩
  · exact ⟨0, by rw [decodePattern, if_pos rfl, busValue, exactValue_zeroPattern], .zero P s⟩
  · obtain ⟨n, rfl⟩ := Int.eq_ofNat_of_zero_le hpos.le
    exact exists_decodedValue_of_pos P (by omega) (by omega) hodd hs

/-- What a decode of a legal width answers, as a number. -/
theorem resultOf_decode_value {m : Mnemonic} {bits : WidthField} {s : State} (hdir : m.dir = .decode)
    (hbits : LegalBits bits) (hs : s.rsp = none) (opnd : Data) :
    ∃ d v, resultOf (m.instr bits opnd) s = some ⟨d, 0#1⟩ ∧ busValue m.prec d = some v ∧
      IsDecodedValue m.prec (clampCode (codeOf opnd) (stepCount bits.toNat)) (stepCount bits.toNat) v := by
  have hle := stepCount_le hbits.2
  obtain ⟨v, hv, hdecoded⟩ := exists_decodedValue m.prec (le_clampCode (codeOf opnd) (stepCount bits.toNat))
    (clampCode_le _ _) (stepCount_odd hbits.1) (by omega)
  exact ⟨_, v, resultOf_decode hdir hbits hs opnd, hv, hdecoded⟩

/-- Settles O42: the decoded value is the nearest of all numbers of the format. -/
theorem decodeIsNearestFloat : Obligations.DecodeIsNearestFloat := by
  intro m bits opnd s hdir hbits hs
  obtain ⟨d, v, hresult, hv, hdecoded⟩ := resultOf_decode_value hdir hbits hs opnd
  exact ⟨d, v, hresult, hv, fun d' v' hv' => hdecoded.nearest (floatNumber_of_busValue hv')⟩

/-- Settles O43: `s` is odd, so the quotient is a float only where it is 0, 1 or -1, and never half way between two. -/
theorem decodeIsExactOnlyAtThreeCodes : Obligations.DecodeIsExactOnlyAtThreeCodes := by
  intro m bits opnd s hdir hbits hs
  obtain ⟨d, v, hresult, hv, hdecoded⟩ := resultOf_decode_value hdir hbits hs opnd
  exact ⟨d, v, hresult, hv, hdecoded.eq_div_iff (stepCount_pos hbits.1),
    fun d' v' hv' htie => hdecoded.unique v' (floatNumber_of_busValue hv') htie.le⟩

/-- Settles O46: the clamped codes are in order, and unique nearest floats keep the order. -/
theorem decodeIsMonotone : Obligations.DecodeIsMonotone := by
  intro m bits a b s hdir hbits hs hab
  obtain ⟨da, va, hra, hva, hdeca⟩ := resultOf_decode_value hdir hbits hs a
  obtain ⟨db, vb, hrb, hvb, hdecb⟩ := resultOf_decode_value hdir hbits hs b
  exact ⟨da, db, va, vb, hra, hrb, hva, hvb,
    hdeca.mono hdecb (floatNumber_of_busValue hva) (floatNumber_of_busValue hvb) (clampCode_mono hab _)⟩

/-! ## The round trips -/

/-- Settles O48: the first error is that of `rha`, over `s`, and the second is that of one rounding to nearest. -/
theorem roundTripErrorBound : Obligations.RoundTripErrorBound := by
  intro P sch bits w s v hbits hs hv h1 h2
  have henc := resultOf_encode (m := ⟨P, sch, .encode⟩) rfl hbits hs w
  have hcode : codeOf (encodeCore P w bits.toNat) = rha (v * stepCount bits.toNat) := by
    rw [codeOf_encodeCore hbits.2, encodeCode_of_mem hv h1 h2]
  have hclamp : clampCode (codeOf (encodeCore P w bits.toNat)) (stepCount bits.toNat) =
      codeOf (encodeCore P w bits.toNat) := by
    obtain ⟨hmin, hmax⟩ := encodeCode_mem (floatOperand P w) bits.toNat
    rw [codeOf_encodeCore hbits.2, clampCode_of_mem hmin hmax]
  obtain ⟨d', v', hdec, hv', hdecoded⟩ :=
    resultOf_decode_value (m := ⟨P, sch, .decode⟩) rfl hbits hs (encodeCore P w bits.toNat)
  rw [hclamp] at hdecoded
  refine ⟨_, d', v', henc, hdec, hv', ?_, hdecoded.relative⟩
  have hspos : (0 : ℚ) < stepCount bits.toNat := by exact_mod_cast stepCount_pos hbits.1
  have hround := abs_rha_sub_le (v * stepCount bits.toNat)
  rw [hcode]
  have hscale : (rha (v * stepCount bits.toNat) : ℚ) / stepCount bits.toNat - v =
      ((rha (v * stepCount bits.toNat) : ℚ) - v * stepCount bits.toNat) / stepCount bits.toNat := by field_simp
  calc |(rha (v * stepCount bits.toNat) : ℚ) / stepCount bits.toNat - v|
      = |(rha (v * stepCount bits.toNat) : ℚ) - v * stepCount bits.toNat| / stepCount bits.toNat := by
        rw [hscale, abs_div, abs_of_pos hspos]
    _ ≤ 1 / 2 / stepCount bits.toNat := div_le_div_of_nonneg_right hround hspos.le
    _ = 1 / (2 * stepCount bits.toNat) := by rw [div_div]

/-- A decoded value encodes back to its code where `s` has fewer bits than the significand (spec/40_common_numerics.md
R71). -/
theorem rha_of_decodedValue {P : Precision} {c : Int} {s : Nat} {v : ℚ} (h : IsDecodedValue P c s v)
    (hmin : -(s : Int) ≤ c) (hmax : c ≤ s) (hs : 0 < s) (hbits : s < 2 ^ fracWidth P) :
    rha (clampUnit v * s) = c := by
  have hspos : (0 : ℚ) < s := by exact_mod_cast hs
  have hsbits : (s : ℚ) < 2 ^ fracWidth P := by exact_mod_cast hbits
  have hlow : -1 ≤ (c : ℚ) / s := by
    rw [le_div_iff₀ hspos]
    exact_mod_cast (by omega : -1 * (s : Int) ≤ c)
  have hhigh : (c : ℚ) / s ≤ 1 := by
    rw [div_le_one hspos]
    exact_mod_cast hmax
  have hscale : clampUnit v * s - c = (clampUnit v - (c : ℚ) / s) * s := by field_simp
  apply rha_eq_of_abs_sub_lt
  calc |clampUnit v * s - c| = |clampUnit v - (c : ℚ) / s| * s := by rw [hscale, abs_mul, abs_of_pos hspos]
    _ ≤ |v - (c : ℚ) / s| * s := mul_le_mul_of_nonneg_right (abs_clampUnit_sub_le hlow hhigh) hspos.le
    _ ≤ |(c : ℚ) / s| / 2 ^ (fracWidth P + 1) * s := mul_le_mul_of_nonneg_right h.relative hspos.le
    _ ≤ 1 / 2 ^ (fracWidth P + 1) * s := by
        gcongr
        exact abs_le.2 ⟨hlow, hhigh⟩
    _ < 1 / 2 := by
        rw [pow_succ, div_mul_eq_mul_div, one_mul, div_lt_div_iff₀ (by positivity) two_pos]
        linarith

/-- Settles O49: the float of a code is nearer to it than half a code, in binary64 for every `s` and in binary32 for `s` of
at most 23 bits. -/
theorem codeRoundTrip : Obligations.CodeRoundTrip := by
  intro P sch bits c s hbits hwidth hs hmin hmax
  obtain ⟨d, v, hdec, hv, hdecoded⟩ := resultOf_decode_value (m := ⟨P, sch, .decode⟩) rfl hbits hs c
  rw [clampCode_of_mem hmin hmax] at hdecoded
  have hstep : stepCount bits.toNat < 2 ^ fracWidth P := by
    have hle := stepCount_le hbits.2
    rcases hwidth with rfl | hnarrow
    · exact Nat.lt_of_le_of_lt hle (by decide)
    · have hpow : 2 ^ (bits.toNat - 1) ≤ 2 ^ fracWidth P :=
        Nat.pow_le_pow_right two_pos (by cases P <;> simp only [fracWidth] <;> omega)
      have := stepCount_add_one bits.toNat
      omega
  have hcode : encodeCode (floatOperand P d) bits.toNat = codeOf c := by
    rw [encodeCode_of_exactValue hv, rha_of_decodedValue hdecoded hmin hmax (stepCount_pos hbits.1) hstep]
  refine ⟨d, hdec, ?_⟩
  rw [resultOf_encode rfl hbits hs, encodeCore, hcode, codeOf, twos32, BitVec.ofInt_toInt]

/-! ## The codes just below `s` in binary32 -/

/-- One doubling brings a code between `s / 2` and `s` to `s`. -/
theorem normalShift_eq_one {n s : Nat} (hlt : n < s) (hle : s ≤ 2 * n) : normalShift n s 31 = 1 := by
  rw [normalShift, if_neg (by omega), normalShift_of_le hle]

/-- The binary32 pattern of a code between `s / 2` and `s`, from the significand its quotient is nearest to
(spec/40_common_numerics.md R64, R65). -/
theorem decodePattern_S_of_significand {n s M : Nat} (hlt : n < s) (hle : s ≤ 2 * n) (hodd : s % 2 = 1)
    (hM : 2 * |(M : Int) * s - (n * 2 ^ 24 : Nat)| < s) :
    decodePattern .S n s = packFloat .S false (if M = 2 ^ 24 then (127, 0) else (126, M - 2 ^ 23)) := by
  have hround : roundQuotient (n * 2 ^ (23 + 1) / s) (n * 2 ^ (23 + 1) % s) s = M := roundQuotient_eq hodd hM
  rw [decodePattern, if_neg (by omega), decide_eq_false (by omega), Int.natAbs_natCast]
  simp only [rneFields, normalShift_eq_one hlt hle, fracWidth, bias, hround]

/-- Where `k / s` is below `2^-25`, the quotient of `s - k` is nearer to 1.0 than to the float below it. -/
theorem decodePattern_S_eq_one {s k : Nat} (hk : 0 < k) (hodd : s % 2 = 1) (hnear : k * 2 ^ 25 < s) :
    decodePattern .S ((s - k : Nat) : Int) s = 0x3F800000#64 := by
  have hM : 2 * |((2 ^ 24 : Nat) : Int) * s - ((s - k) * 2 ^ 24 : Nat)| < s := by
    rw [abs_of_nonneg (by omega)]
    omega
  rw [decodePattern_S_of_significand (by omega) (by omega) hodd hM]
  decide

/-- Where `k / s` is between `2^-25` and `3 * 2^-25`, the quotient of `s - k` is nearest to the float below 1.0. -/
theorem decodePattern_S_below_one {s k : Nat} (hodd : s % 2 = 1) (hfar : s < k * 2 ^ 25) (hnear : k * 2 ^ 25 < 3 * s) :
    decodePattern .S ((s - k : Nat) : Int) s = 0x3F7FFFFF#64 := by
  have hM : 2 * |((2 ^ 24 - 1 : Nat) : Int) * s - ((s - k) * 2 ^ 24 : Nat)| < s := by
    have := abs_cases (((2 ^ 24 - 1 : Nat) : Int) * s - ((s - k) * 2 ^ 24 : Nat))
    omega
  rw [decodePattern_S_of_significand (by omega) (by omega) hodd hM]
  decide

/-- The decode of the code at a distance `k` below `s`. -/
theorem resultOf_decode_S_below {bits : WidthField} {s : State} {sch : Scheme} {c d : Data} {k : Nat}
    (hbits : LegalBits bits) (hs : s.rsp = none) (hk : k ≤ stepCount bits.toNat)
    (hc : codeOf c = (stepCount bits.toNat : Int) - k)
    (hd : decodePattern .S ((stepCount bits.toNat - k : Nat) : Int) (stepCount bits.toNat) = d) :
    resultOf (Mnemonic.instr ⟨.S, sch, .decode⟩ bits c) s = some ⟨d, 0#1⟩ := by
  rw [(decodeSaturatesAtStepCount _ bits c s rfl hbits hs).2.2 (by omega) (by omega), hc, ← hd, Int.natCast_sub hk]

/-- Settles O51: `s` is above `k * 2^25` for `k = 1` from width 27 up and for `k ≤ 63` at width 32, and between a third of
it and it for `k = 1` at width 26 and for `k = 64` at width 32. -/
theorem binary32DecodeReachesOneEarly : Obligations.Binary32DecodeReachesOneEarly := by
  refine ⟨fun sch bits s hmin hmax hs => ?wide, fun sch s hs => ?width26, fun sch s c hs hc => ?near,
    fun sch s c hs hc => ?far⟩
  case wide =>
    have hodd := stepCount_odd (e := bits.toNat) (by omega)
    have hle := stepCount_le hmax
    have hlarge : 1 * 2 ^ 25 < stepCount bits.toNat := by
      have hpow : 2 ^ 26 ≤ 2 ^ (bits.toNat - 1) := Nat.pow_le_pow_right two_pos (by omega)
      have := stepCount_add_one bits.toNat
      omega
    have hcode : codeOf (zext64 (twos32 ((stepCount bits.toNat : Int) - 1))) = (stepCount bits.toNat : Int) - 1 :=
      codeOf_zext64_twos32 (by omega) (by omega)
    exact resultOf_decode_S_below (k := 1) ⟨by omega, hmax⟩ hs (by omega) hcode
      (decodePattern_S_eq_one one_pos hodd hlarge)
  case width26 =>
    exact resultOf_decode_S_below (k := 1) ⟨by decide, by decide⟩ hs (by decide) (by decide)
      (decodePattern_S_below_one (by decide) (by decide) (by decide))
  case near =>
    have hlegal : LegalBits 32 := ⟨by decide, by decide⟩
    have hstep : stepCount 32 = 2 ^ 31 - 1 := rfl
    rcases le_or_gt (stepCount 32 : Int) (codeOf c) with hge | hlt
    · exact (decodeSaturatesAtStepCount ⟨.S, sch, .decode⟩ 32 c s rfl hlegal hs).1 hge
    · obtain ⟨k, hk⟩ : ∃ k : Nat, codeOf c = (stepCount 32 : Int) - k :=
        ⟨((stepCount 32 : Int) - codeOf c).toNat, by omega⟩
      exact resultOf_decode_S_below hlegal hs (show k ≤ stepCount 32 by omega) hk
        (decodePattern_S_eq_one (s := stepCount 32) (by omega) (by decide) (by omega))
  case far =>
    exact resultOf_decode_S_below ⟨by decide, by decide⟩ hs (by decide) hc
      (decodePattern_S_below_one (k := 64) (by decide) (by decide) (by decide))

end Sys2Proof.Machine

/-! PROOFS. Decimal float literals (spec/30_encoding.md R49, log entry 13): the pattern of a literal is a float nearest to
its rational, whatever the free choice on a tie. -/

namespace Sys2Proof.Machine

/-! ## The exponent of a literal -/

/-- A power of two with the sign of its exponent resolved, as the assembler scales by it. -/
theorem two_zpow_eq_div (t : Int) : (2 : ℚ) ^ t = ((2 ^ t.toNat : Nat) : ℚ) / ((2 ^ (-t).toNat : Nat) : ℚ) := by
  obtain ⟨n, rfl | rfl⟩ := t.eq_nat_or_neg <;> simp

theorem mul_two_pow_lt_iff {num den : Nat} (hden : 0 < den) (t : Int) :
    num * 2 ^ (-t).toNat < den * 2 ^ t.toNat ↔ (num : ℚ) / den < 2 ^ t := by
  rw [two_zpow_eq_div, div_lt_div_iff₀ (by positivity) (by positivity), mul_comm den]
  exact_mod_cast Iff.rfl

/-- `quotientLog2` is `⌊log2 (num / den)⌋`. -/
theorem quotientLog2_spec {num den : Nat} (hnum : num ≠ 0) (hden : 0 < den) :
    (2 : ℚ) ^ quotientLog2 num den ≤ (num : ℚ) / den ∧ (num : ℚ) / den < 2 ^ (quotientLog2 num den + 1) := by
  have hdenq : (0 : ℚ) < den := by exact_mod_cast hden
  have hnumLow : ((2 : ℚ) ^ num.log2) ≤ num := by exact_mod_cast Nat.log2_self_le hnum
  have hnumHigh : (num : ℚ) < 2 ^ (num.log2 + 1) := by exact_mod_cast Nat.lt_log2_self
  have hdenLow : ((2 : ℚ) ^ den.log2) ≤ den := by exact_mod_cast Nat.log2_self_le hden.ne'
  have hdenHigh : (den : ℚ) < 2 ^ (den.log2 + 1) := by exact_mod_cast Nat.lt_log2_self
  have hlow : (2 : ℚ) ^ ((num.log2 : Int) - den.log2 - 1) ≤ (num : ℚ) / den := by
    have hpow : (2 : ℚ) ^ ((num.log2 : Int) - den.log2 - 1) = 2 ^ num.log2 / 2 ^ (den.log2 + 1) := by
      rw [sub_sub, zpow_sub₀ two_ne_zero, zpow_natCast, ← Nat.cast_add_one, zpow_natCast]
    rw [hpow]
    exact div_le_div₀ (Nat.cast_nonneg num) hnumLow hdenq hdenHigh.le
  have hhigh : (num : ℚ) / den < 2 ^ ((num.log2 : Int) - den.log2 + 1) := by
    have hpow : (2 : ℚ) ^ ((num.log2 : Int) - den.log2 + 1) = 2 ^ (num.log2 + 1) / 2 ^ den.log2 := by
      rw [sub_add_eq_add_sub, zpow_sub₀ two_ne_zero, zpow_natCast, ← Nat.cast_add_one, zpow_natCast]
    rw [hpow]
    exact div_lt_div₀ hnumHigh hdenLow (by positivity) (by positivity)
  unfold quotientLog2
  simp only [mul_two_pow_lt_iff hden]
  split
  · next hlt => exact ⟨hlow, by rwa [sub_add_cancel]⟩
  · next hge => exact ⟨not_lt.1 hge, hhigh⟩

/-! ## The significand of a literal -/

/-- The exponent at which the assembler rounds a literal: that of the literal, or that of the subnormals. -/
def literalExponent (P : Precision) (num den : Nat) : Int := max (quotientLog2 num den) (1 - (bias P : Int))

/-- The numerator of a literal scaled to its significand. -/
def literalTop (P : Precision) (num den : Nat) : Nat :=
  num * 2 ^ ((fracWidth P : Int) - literalExponent P num den).toNat

/-- The denominator of a literal scaled to its significand. -/
def literalBottom (P : Precision) (num den : Nat) : Nat :=
  den * 2 ^ (-((fracWidth P : Int) - literalExponent P num den)).toNat

/-- The significand of a literal, rounded to nearest, with a free choice on a tie (log entry 13). -/
def literalSignificand (P : Precision) (num den : Nat) : Nat :=
  let M := literalTop P num den / literalBottom P num den
  let rem := literalTop P num den % literalBottom P num den
  if literalBottom P num den < 2 * rem ∨ (2 * rem = literalBottom P num den ∧ Config.literalTieRoundsUp num den) then
    M + 1
  else M

/-- What the assembler computes for a literal that is not zero. -/
theorem nearestMagnitude_of_ne_zero (P : Precision) {num : Nat} (hnum : num ≠ 0) (den : Nat) :
    nearestMagnitude P num den =
      (literalExponent P num den + (bias P : Int) - 1).toNat * 2 ^ fracWidth P + literalSignificand P num den :=
  if_neg hnum

section
variable {P : Precision} {num den : Nat}

theorem literalBottom_pos (P : Precision) (num : Nat) (hden : 0 < den) : 0 < literalBottom P num den :=
  Nat.mul_pos hden (by positivity)

/-- Scaling changes a literal by the power of two of its last place. -/
theorem literal_eq_scaled (P : Precision) (num : Nat) (hden : 0 < den) :
    (num : ℚ) / den = (literalTop P num den : ℚ) / literalBottom P num den *
      2 ^ (literalExponent P num den - fracWidth P) := by
  have hdenq : (den : ℚ) ≠ 0 := by exact_mod_cast hden.ne'
  rw [← neg_sub (fracWidth P : Int), two_zpow_eq_div, neg_neg, literalTop, literalBottom]
  push_cast
  field_simp

/-- Either choice on a tie is within half of the scaled literal. -/
theorem literalSignificand_near (P : Precision) (num : Nat) (hden : 0 < den) :
    2 * |(literalSignificand P num den : Int) * literalBottom P num den - literalTop P num den| ≤
      literalBottom P num den := by
  unfold literalSignificand
  have hpos := literalBottom_pos P num hden
  generalize literalBottom P num den = bot, literalTop P num den = top at hpos ⊢
  have hrem : top % bot < bot := Nat.mod_lt top hpos
  have hdiv : (top : Int) = (top / bot : Nat) * bot + (top % bot : Nat) := by
    exact_mod_cast (Nat.div_add_mod' top bot).symm
  generalize top / bot = M, top % bot = rem at hrem hdiv ⊢
  simp only
  split
  · have hdist : ((M + 1 : Nat) : Int) * bot - top = bot - rem := by rw [hdiv]; push_cast; ring
    rw [hdist, abs_of_nonneg (by omega)]
    omega
  · have hdist : (M : Int) * bot - top = -rem := by rw [hdiv]; ring
    rw [hdist, abs_neg, abs_of_nonneg (by omega)]
    omega

theorem literalSignificand_bounds (P : Precision) (num den : Nat) :
    literalTop P num den / literalBottom P num den ≤ literalSignificand P num den ∧
      literalSignificand P num den ≤ literalTop P num den / literalBottom P num den + 1 := by
  unfold literalSignificand
  simp only
  split <;> omega

/-- The literal is below the next power of two, so its significand has `fw + 1` bits or carries. -/
theorem literalSignificand_le (P : Precision) (hnum : num ≠ 0) (hden : 0 < den) :
    literalSignificand P num den ≤ 2 ^ (fracWidth P + 1) := by
  have hlt : (literalTop P num den : ℚ) / literalBottom P num den < 2 ^ (fracWidth P + 1) := by
    have hbelow : (num : ℚ) / den < 2 ^ (fracWidth P + 1) * 2 ^ (literalExponent P num den - fracWidth P) := by
      rw [← zpow_natCast, ← zpow_add₀ two_ne_zero]
      refine (quotientLog2_spec hnum hden).2.trans_le (zpow_le_zpow_right₀ one_le_two ?_)
      rw [literalExponent]
      push_cast
      omega
    rw [literal_eq_scaled P num hden] at hbelow
    exact lt_of_mul_lt_mul_right hbelow (by positivity)
  rw [div_lt_iff₀ (by exact_mod_cast literalBottom_pos P num hden)] at hlt
  have hquotient : literalTop P num den / literalBottom P num den < 2 ^ (fracWidth P + 1) :=
    (Nat.div_lt_iff_lt_mul (literalBottom_pos P num hden)).2 (by exact_mod_cast hlt)
  exact (literalSignificand_bounds P num den).2.trans hquotient

/-- Above the subnormals the exponent is that of the literal. -/
theorem two_zpow_literalExponent_le (hnum : num ≠ 0) (hden : 0 < den)
    (hnormal : 1 - (bias P : Int) < literalExponent P num den) :
    (2 : ℚ) ^ fracWidth P * 2 ^ (literalExponent P num den - fracWidth P) ≤ (num : ℚ) / den := by
  have hexponent : literalExponent P num den = quotientLog2 num den := by
    unfold literalExponent at hnormal ⊢
    omega
  rw [← zpow_natCast, ← zpow_add₀ two_ne_zero, add_sub_cancel, hexponent]
  exact (quotientLog2_spec hnum hden).1

theorem le_literalSignificand (hnum : num ≠ 0) (hden : 0 < den)
    (hnormal : 1 - (bias P : Int) < literalExponent P num den) : 2 ^ fracWidth P ≤ literalSignificand P num den := by
  have hle : (2 : ℚ) ^ fracWidth P ≤ (literalTop P num den : ℚ) / literalBottom P num den := by
    have habove := two_zpow_literalExponent_le hnum hden hnormal
    rw [literal_eq_scaled P num hden] at habove
    exact le_of_mul_le_mul_right habove (by positivity)
  rw [le_div_iff₀ (by exact_mod_cast literalBottom_pos P num hden)] at hle
  have hquotient : 2 ^ fracWidth P ≤ literalTop P num den / literalBottom P num den :=
    (Nat.le_div_iff_mul_le (literalBottom_pos P num hden)).2 (by exact_mod_cast hle)
  exact hquotient.trans (literalSignificand_bounds P num den).1

end

/-! ## The pattern of a literal -/

/-- The magnitude of a literal as exponent and significand, and how near it is (spec/30_encoding.md R49). -/
theorem nearestMagnitude_spec (P : Precision) (num : Nat) {den : Nat} (hden : 0 < den) :
    ∃ k M : Nat, nearestMagnitude P num den = k * 2 ^ fracWidth P + M ∧ M ≤ 2 ^ (fracWidth P + 1) ∧
      (k = 0 ∨ 2 ^ fracWidth P ≤ M) ∧
      ∀ v, FloatNumber P v →
        |finiteValue false M ((k : Int) + 1 - bias P - fracWidth P) - (num : ℚ) / den| ≤ |v - (num : ℚ) / den| := by
  rcases eq_or_ne num 0 with rfl | hnum
  · exact ⟨0, 0, by simp [nearestMagnitude], by simp, .inl rfl, fun v _ => by simp [finiteValue]⟩
  · have hmin : 1 - (bias P : Int) ≤ literalExponent P num den := le_max_right _ _
    refine ⟨_, _, nearestMagnitude_of_ne_zero P hnum den, literalSignificand_le P hnum hden, ?normal, fun v hv => ?near⟩
    case normal =>
      rcases hmin.eq_or_lt with heq | hlt
      · exact .inl (by omega)
      · exact .inr (le_literalSignificand hnum hden hlt)
    case near =>
      have hexponent : ((literalExponent P num den + (bias P : Int) - 1).toNat : Int) + 1 - bias P - fracWidth P =
          literalExponent P num den - fracWidth P := by omega
      rw [hexponent, finiteValue_false, ← Int.cast_natCast (literalSignificand P num den)]
      refine abs_sub_le_of_floatNumber ?half (fun hx => two_zpow_literalExponent_le hnum hden (by omega)) hv
      rw [literal_eq_scaled P num hden]
      exact abs_significand_sub_le (by positivity) (literalBottom_pos P num hden) (literalSignificand_near P num hden)

/-- A number is its high part followed by its low part. -/
theorem ofNat_div_append_ofNat_mod (m n k : Nat) :
    BitVec.ofNat m (k / 2 ^ n) ++ BitVec.ofNat n (k % 2 ^ n) = BitVec.ofNat (m + n) k := by
  apply BitVec.eq_of_toNat_eq
  rw [BitVec.toNat_append, BitVec.toNat_ofNat, BitVec.toNat_ofNat, BitVec.toNat_ofNat, Nat.mod_mod,
    ← Nat.shiftLeft_add_eq_or_of_lt (Nat.mod_lt _ (by positivity)), Nat.shiftLeft_eq, Nat.add_comm m n, pow_add,
    Nat.mod_mul]
  ring

/-- The pattern of a literal has the fields of its magnitude (spec/30_encoding.md R46). -/
theorem signedPattern_eq_packFloat (P : Precision) (negative : Bool) (magnitude : Nat) :
    signedPattern P negative magnitude =
      packFloat P negative (magnitude / 2 ^ fracWidth P, magnitude % 2 ^ fracWidth P) := by
  cases P with
  | S =>
    exact congrArg (fun w => zext64 (BitVec.ofBool negative ++ w)) (ofNat_div_append_ofNat_mod 8 23 magnitude).symm
  | D => exact congrArg (fun w => BitVec.ofBool negative ++ w) (ofNat_div_append_ofNat_mod 11 52 magnitude).symm

theorem floatLiteral_of_finite {P : Precision} {num den : Nat} (negative : Bool)
    (h : nearestMagnitude P num den < expMax P * 2 ^ fracWidth P) :
    floatLiteral P negative num den = signedPattern P negative (nearestMagnitude P num den) :=
  if_pos h

/-- Settles O56: without its sign the literal's value is a nearest one, and the numbers of a format are closed under
negation. -/
theorem floatLiteralIsNearest : Obligations.FloatLiteralIsNearest := by
  intro P negative num den hden hfinite
  obtain ⟨k, M, hmagnitude, hM, hlow, hnearest⟩ := nearestMagnitude_spec P num hden
  refine ⟨finiteValue negative M ((k : Int) + 1 - bias P - fracWidth P), ?value, fun d' v' hv' => ?nearest⟩
  case value =>
    rw [floatLiteral_of_finite negative hfinite, signedPattern_eq_packFloat, hmagnitude]
    rw [hmagnitude] at hfinite
    exact busValue_packFloat_magnitude negative hM hlow hfinite
  case nearest =>
    have hfloat := floatNumber_of_busValue hv'
    cases negative with
    | false => simpa using hnearest v' hfloat
    | true =>
      have hflip (w : ℚ) : |-w - -1 * ((num : ℚ) / den)| = |w - (num : ℚ) / den| := by
        rw [← abs_neg]
        congr 1
        ring
      rw [finiteValue_true, if_pos rfl, ← neg_neg v', hflip, hflip]
      exact hnearest (-v') hfloat.neg

end Sys2Proof.Machine
